-- ==== Sys2Proof/Word.lean ====
section
/-! DEFINITION. The words of base64_codec: bytes, symbol values, stream items (spec/00_scope.md R7, R8;
spec/30_encoding.md R84 to R87), and the small sets of names the spec uses. -/

namespace Sys2Proof

/-- A data byte or a character code: `BYTE_W = CHAR_W = 8` (R7, R8). -/
abbrev Byte := BitVec 8

/-- A symbol value or an encoder field: `SYM_W = 6` (R7). -/
abbrev Sym := BitVec 6

/-- An input item of either unit, `end` in bit 8 and `data` in bits 7:0 (R84, R85). -/
abbrev InItem := BitVec 9

/-- An output item of either unit, `end` in bit 9, `err` in bit 8, `data` in bits 7:0 (R86, R87). -/
abbrev OutItem := BitVec 10

/-- The two alphabet variants (R2, R15): `v = 0` is `std`, `v = 1` is `url`. -/
inductive Variant where
  | std
  | url
  deriving DecidableEq, Repr

/-- The two units (R20). -/
inductive UnitId where
  | enc
  | dec
  deriving DecidableEq, Repr

/-- The two control registers by number (R53, R82, R83). -/
inductive CrNum where
  | cr0
  | cr1
  deriving DecidableEq, Repr

end Sys2Proof
end

