-- ==== Sys2Proof/Config.lean ====
section
/-! DEFINITION. The fixed parameters of spec/00_scope.md section 4. No parameter that a step can show is open
(`OUT_BUFFERING` is not observable, spec/93_implementation_defined.md U6), and the spec leaves no result of a step
without a value, so there is no free value. -/

namespace Sys2Proof.Config

/-- `PAD_CHAR`, the character `=` (R119, D27). -/
def padChar : Byte := 0x3D#8

/-- `ERR_MALFORMED`: the value of `err` that reports `MalformedEncoding` (R202, D10). -/
def errMalformed : BitVec 1 := 1#1

/-- The value of `err` that reports success (R202). -/
def errNone : BitVec 1 := 0#1

end Sys2Proof.Config
end

