-- ==== Sys2Proof/Syntax.lean ====
section
/-! DEFINITION. The words of the ports as syntax: one constructor per row of spec/opcode_table.json.
The hardware fetches no instructions (R35); what it has in their place are the OP words, the items of its four streams
and the words written to its control registers (spec/30_encoding.md, opening paragraph). -/

namespace Sys2Proof

/-- One constructor per row of the table, in the table's order. -/
inductive Instr where
  /-- ENC.STD.NOPAD, OP 0b000 (R81, R137). -/
  | encStdNopad
  /-- ENC.URL.NOPAD, OP 0b001 (R81, R138). -/
  | encUrlNopad
  /-- ENC.STD.PAD, OP 0b010 (R81, R139). -/
  | encStdPad
  /-- ENC.URL.PAD, OP 0b011 (R81, R140). -/
  | encUrlPad
  /-- DEC.STD, OP 0b100 (R81, R169). -/
  | decStd
  /-- DEC.URL, OP 0b101 (R81, R170). -/
  | decUrl
  /-- ENC.IN.DATA: the encoder input item DATA(b) (R84). -/
  | encInData (b : Byte)
  /-- ENC.IN.END: the encoder input item END; `ignored` is its `data` field, which no rule reads (R84, R102). -/
  | encInEnd (ignored : Byte)
  /-- DEC.IN.CHAR: the decoder input item CHAR(c) (R85). -/
  | decInChar (c : Byte)
  /-- DEC.IN.END: the decoder input item END; `ignored` is its `data` field, which no rule reads (R85, R102). -/
  | decInEnd (ignored : Byte)
  /-- ENC.OUT.CHAR: the encoder output item CHAR(c) (R86). -/
  | encOutChar (c : Byte)
  /-- ENC.OUT.END0: the encoder output item END(0) (R86). -/
  | encOutEnd0
  /-- DEC.OUT.BYTE: the decoder output item BYTE(b) (R87). -/
  | decOutByte (b : Byte)
  /-- DEC.OUT.END0: the decoder output item END(0) (R87). -/
  | decOutEnd0
  /-- DEC.OUT.END1: the decoder output item END(1), MalformedEncoding (R87, R202). -/
  | decOutEnd1
  /-- ENC_CTRL: the word written to CR0, PAD in bit 1 and VARIANT in bit 0 (R82). -/
  | encCtrl (n : BitVec 2)
  /-- DEC_CTRL: the word written to CR1, VARIANT in bit 0 (R83). -/
  | decCtrl (n : BitVec 1)
  deriving DecidableEq, Repr

end Sys2Proof
end

