-- ==== Sys2Proof/Decode.lean ====
section
/-! DEFINITION. Decoding and encoding of the words of the ports (spec/30_encoding.md sections 1 to 3).
A word alone does not name its row of the table (0x000 is an item of all four streams): the port it stands on does, so
the decoder takes the port and the word. It is total on every number and rejects by name. -/

namespace Sys2Proof

/-- The places where a word of the table can stand: the OP word of a host's request (R80), the two control registers
(R82, R83) and the four streams (R84 to R87). -/
inductive Port where
  | op
  | cr0
  | cr1
  | encIn
  | decIn
  | encOut
  | decOut
  deriving DecidableEq, Repr

/-- Why a word is no word of its port. -/
inductive Reject where
  /-- OP values 6 and 7, which cannot be formed (R95, V2). -/
  | opUnformable
  /-- More bits than the port has (R80, R84 to R87; U13 for characters). -/
  | wordTooWide
  /-- An output item the units never produce (V4; R86, R87). -/
  | reservedOutput
  deriving DecidableEq, Repr

/-- What the decoder answers. -/
inductive Decoded where
  | ok (i : Instr)
  | rejected (r : Reject)
  deriving DecidableEq, Repr

/-- The `data` field, bits 7:0, of an item (R84 to R87). -/
def itemData (w : Nat) : Byte := BitVec.ofNat 8 w

/-- `op[2:0] = UNIT, PAD, VARIANT` (R80, R81). -/
def decodeOp (w : Nat) : Decoded :=
  match w with
  | 0 => .ok .encStdNopad
  | 1 => .ok .encUrlNopad
  | 2 => .ok .encStdPad
  | 3 => .ok .encUrlPad
  | 4 => .ok .decStd
  | 5 => .ok .decUrl
  | 6 => .rejected .opUnformable
  | 7 => .rejected .opUnformable
  | _ => .rejected .wordTooWide

/-- Encoder input item: bit 8 is `end` (R84). -/
def decodeEncIn (w : Nat) : Decoded :=
  if w < 2 ^ 9 then
    if w.testBit 8 then .ok (.encInEnd (itemData w)) else .ok (.encInData (itemData w))
  else .rejected .wordTooWide

/-- Decoder input item: bit 8 is `end` (R85). -/
def decodeDecIn (w : Nat) : Decoded :=
  if w < 2 ^ 9 then
    if w.testBit 8 then .ok (.decInEnd (itemData w)) else .ok (.decInChar (itemData w))
  else .rejected .wordTooWide

/-- Encoder output item: bit 9 is `end`, bit 8 is `err`, always 0; `data` is 0x00 for END (R86). -/
def decodeEncOut (w : Nat) : Decoded :=
  if w < 2 ^ 10 then
    if w.testBit 9 then
      if w = 0x200 then .ok .encOutEnd0 else .rejected .reservedOutput
    else if w.testBit 8 then .rejected .reservedOutput
    else .ok (.encOutChar (itemData w))
  else .rejected .wordTooWide

/-- Decoder output item: bit 9 is `end`, bit 8 is `err`; `data` is 0x00 for END (R87). -/
def decodeDecOut (w : Nat) : Decoded :=
  if w < 2 ^ 10 then
    if w.testBit 9 then
      if w = 0x200 then .ok .decOutEnd0
      else if w = 0x300 then .ok .decOutEnd1
      else .rejected .reservedOutput
    else if w.testBit 8 then .rejected .reservedOutput
    else .ok (.decOutByte (itemData w))
  else .rejected .wordTooWide

/-- The decoder. A control-register port takes a word of any platform width and keeps the defined bits; the bits above
do not exist in the hardware and a write to them is ignored (R94, V1). -/
def decode (p : Port) (w : Nat) : Decoded :=
  match p with
  | .op => decodeOp w
  | .cr0 => .ok (.encCtrl (BitVec.ofNat 2 w))
  | .cr1 => .ok (.decCtrl (BitVec.ofNat 1 w))
  | .encIn => decodeEncIn w
  | .decIn => decodeDecIn w
  | .encOut => decodeEncOut w
  | .decOut => decodeDecOut w

/-- The words as bit vectors, by the layouts of R84 to R87. -/
def inData (b : Byte) : BitVec 9 := 0#1 ++ b
/-- An input END item with the given, ignored, `data` field (R84, R85, R102). -/
def inEnd (b : Byte) : BitVec 9 := 1#1 ++ b
/-- An output CHAR or BYTE item (R86, R87). -/
def outData (b : Byte) : BitVec 10 := 0#1 ++ 0#1 ++ b
/-- An output END item; its `data` field is 0x00 (R86, R87, R102). -/
def outEnd (err : BitVec 1) : BitVec 10 := 1#1 ++ err ++ 0x00#8

/-- The encoder: the port and the word of an instruction, from the layouts of spec/30_encoding.md. -/
def encode (i : Instr) : Port × Nat :=
  match i with
  | .encStdNopad => (.op, 0b000)
  | .encUrlNopad => (.op, 0b001)
  | .encStdPad => (.op, 0b010)
  | .encUrlPad => (.op, 0b011)
  | .decStd => (.op, 0b100)
  | .decUrl => (.op, 0b101)
  | .encInData b => (.encIn, (inData b).toNat)
  | .encInEnd d => (.encIn, (inEnd d).toNat)
  | .decInChar c => (.decIn, (inData c).toNat)
  | .decInEnd d => (.decIn, (inEnd d).toNat)
  | .encOutChar c => (.encOut, (outData c).toNat)
  | .encOutEnd0 => (.encOut, (outEnd 0#1).toNat)
  | .decOutByte b => (.decOut, (outData b).toNat)
  | .decOutEnd0 => (.decOut, (outEnd 0#1).toNat)
  | .decOutEnd1 => (.decOut, (outEnd 1#1).toNat)
  | .encCtrl n => (.cr0, n.toNat)
  | .decCtrl n => (.cr1, n.toNat)

/-- The width of a port's words (R80 to R87). -/
def Port.width (p : Port) : Nat :=
  match p with
  | .op => 3
  | .cr0 => 2
  | .cr1 => 1
  | .encIn | .decIn => 9
  | .encOut | .decOut => 10

/-- Whether the decoder accepts a word on a port. -/
def Port.accepts (w : Nat) (p : Port) : Bool :=
  match decode p w with
  | .ok _ => true
  | .rejected _ => false

/-- The port on which a word of the table is read when only its bits and its length are given: the length tells OP
words from items; among the streams the first that accepts the word, in the table's order. DESIGN CHOICE, unsafe only
for a reader who takes the answer for the one row that has this word (notes/assumptions/3.md). -/
def tablePort (nbits w : Nat) : Port :=
  if nbits = 1 then .cr1
  else if nbits = 2 then .cr0
  else if nbits ≤ 8 then .op
  else if nbits = 10 then ([Port.encOut, .decOut].find? (Port.accepts w)).getD .op
  else ([Port.encIn, .decIn, .encOut, .decOut].find? (Port.accepts w)).getD .op

/-- The instruction the decoder reads from a word of spec/opcode_table.json. -/
def decodeTableWord (nbits w : Nat) : Option Instr :=
  match decode (tablePort nbits w) w with
  | .ok i => some i
  | .rejected _ => none

end Sys2Proof
end

