-- ==== Sys2Proof/Machine/Tables.lean ====
section
/-! DEFINITION. The constant tables ALPHA and REV (spec/40_alphabet.md) and their two look-ups, the only memory reads of
the hardware (R121). Each is total on its whole domain, has no side effect and depends on no state. -/

namespace Sys2Proof.Machine

/-- `ALPHA[v][62]`, `ALPHA[v][63]`: the two entries in which the variants differ (R111, R113). -/
def alphaTail (v : Variant) : Byte × Byte :=
  match v with
  | .std => (0x2B#8, 0x2F#8)
  | .url => (0x2D#8, 0x5F#8)

/-- `MemRead(ALPHA[v], i, 1)` by the construction of R111. -/
def alpha (v : Variant) (i : Sym) : Byte :=
  let n := i.toNat
  if n ≤ 25 then BitVec.ofNat 8 (0x41 + n)
  else if n ≤ 51 then BitVec.ofNat 8 (0x61 + (n - 26))
  else if n ≤ 61 then BitVec.ofNat 8 (0x30 + (n - 52))
  else if n = 62 then (alphaTail v).1
  else (alphaTail v).2

/-- `MemRead(REV[v], c, 1)` by the code ranges of R116: `some value` where `valid = 1`, `none` where `valid = 0`
(there the entry has no value and no rule reads one, U3). -/
def rev (v : Variant) (c : Byte) : Option Sym :=
  let n := c.toNat
  if 0x41 ≤ n ∧ n ≤ 0x5A then some (BitVec.ofNat 6 (n - 0x41))
  else if 0x61 ≤ n ∧ n ≤ 0x7A then some (BitVec.ofNat 6 (n - 0x61 + 26))
  else if 0x30 ≤ n ∧ n ≤ 0x39 then some (BitVec.ofNat 6 (n - 0x30 + 52))
  else if c = (alphaTail v).1 then some 62#6
  else if c = (alphaTail v).2 then some 63#6
  else none

/-- A character of the alphabet of `v`: the class "symbol" of R93. Every other code is foreign. -/
def isSymbol (v : Variant) (c : Byte) : Bool := (rev v c).isSome

end Sys2Proof.Machine
end

