-- ==== Sys2Proof/Machine/Operands.lean ====
section
/-! DEFINITION. The bit layouts of the datapath: control-register fields (R82, R83), the encoder's bit expansion (R132)
and the decoder's bit packing (R164 to R166). -/

namespace Sys2Proof.Machine

/-- The VARIANT bit: 0 = STD, 1 = URL (R15, R82, R83). -/
def variantOfBit (b : Bool) : Variant := if b then .url else .std

/-- `ENC_CTRL.VARIANT`, bit 0 (R82). -/
def encCtrlVariant (n : BitVec 2) : Variant := variantOfBit (n.getLsbD 0)

/-- `ENC_CTRL.PAD`, bit 1 (R82). -/
def encCtrlPad (n : BitVec 2) : Bool := n.getLsbD 1

/-- `DEC_CTRL.VARIANT`, bit 0 (R83). -/
def decCtrlVariant (n : BitVec 1) : Variant := variantOfBit (n.getLsbD 0)

/-- The `end` field, bit 8, of an input item (R84, R85). -/
def inItemEnd (w : InItem) : Bool := w.getLsbD 8

/-- The `data` field, bits 7:0, of an input item (R84, R85). -/
def inItemData (w : InItem) : Byte := w.extractLsb' 0 8

/-- `f1 = byte1[7:2]` (R132). -/
def field1 (byte1 : Byte) : Sym := byte1.extractLsb' 2 6

/-- `f2 = (byte1[1:0] << 4) | byte2[7:4]` (R132); an absent byte 2 is 0x00 (R89). -/
def field2 (byte1 byte2 : Byte) : Sym :=
  ((byte1.extractLsb' 0 2).setWidth 6 <<< 4) ||| (byte2.extractLsb' 4 4).setWidth 6

/-- `f3 = (byte2[3:0] << 2) | byte3[7:6]` (R132); an absent byte 3 is 0x00 (R89). -/
def field3 (byte2 byte3 : Byte) : Sym :=
  ((byte2.extractLsb' 0 4).setWidth 6 <<< 2) ||| (byte3.extractLsb' 6 2).setWidth 6

/-- `f4 = byte3[5:0]` (R132). -/
def field4 (byte3 : Byte) : Sym := byte3.extractLsb' 0 6

/-- `byte1 = (a << 2) | (b >> 4)` (R164). The formulas of R164 to R166 stay below 4096 on unbounded numbers (R90), so
12 bits hold them exactly before the truncation to 8 bits. -/
def pack1 (a b : Sym) : Byte :=
  ((a.setWidth 12 <<< 2) ||| (b.setWidth 12 >>> 4)).setWidth 8

/-- `byte2 = trunc_8((b << 4) | (c >> 2))` (R165). -/
def pack2 (b c : Sym) : Byte :=
  ((b.setWidth 12 <<< 4) ||| (c.setWidth 12 >>> 2)).setWidth 8

/-- `byte3 = trunc_8((c << 6) | d)` (R166). -/
def pack3 (c d : Sym) : Byte :=
  ((c.setWidth 12 <<< 6) ||| d.setWidth 12).setWidth 8

end Sys2Proof.Machine
end

