-- ==== Sys2Proof/Machine/State.lean ====
section
/-! DEFINITION. The state of base64_codec (spec/10_state.md) as plain data, its reset (R42), and the reasons a step can
stop. The hardware's own state is `encCtrl`, `decCtrl`, `enc` and `dec`; the fields `script`, `sched`, `rx` and `reads`
are the host interface (spec/10_state.md R44, spec/30_encoding.md R100, spec/60_exceptions.md R205). -/

namespace Sys2Proof.Machine

/-- The encoder unit's registers and streams (R22 to R27, R37). `ENC.Out` is `outTaken ++ outWait`: the items the
consumer has taken, then those it has not (R37, R39 (c)). -/
structure EncUnit where
  cfgV : Variant
  cfgP : Bool
  b1 : Byte
  b2 : Byte
  cnt : BitVec 2
  busy : Bool
  inp : List InItem
  outTaken : List OutItem
  outWait : List OutItem
  deriving DecidableEq, Repr

/-- The decoder unit's registers and streams (R29 to R34, R37). `DEC.Out` is `outTaken ++ outWait`. -/
structure DecUnit where
  cfgV : Variant
  s1 : Sym
  s2 : Sym
  s3 : Sym
  cnt : BitVec 2
  busy : Bool
  inp : List InItem
  outTaken : List OutItem
  outWait : List OutItem
  deriving DecidableEq, Repr

/-- `ENC.Out`: all items emitted since reset (R37). -/
def EncUnit.out (e : EncUnit) : List OutItem := e.outTaken ++ e.outWait

/-- `DEC.Out`: all items emitted since reset (R37). -/
def DecUnit.out (d : DecUnit) : List OutItem := d.outTaken ++ d.outWait

/-- The result of a decoder message (R160, R205). -/
inductive DecResult where
  | ok (bytes : List Byte)
  | malformedEncoding
  deriving DecidableEq, Repr

/-- What the consumer has received: the message in hand and the finished results, oldest first (R205, R238). -/
structure Consumer where
  encChars : List Byte
  encResults : List (List Byte)
  decBytes : List Byte
  decResults : List DecResult
  deriving DecidableEq, Repr

/-- The actions of the host (R44, R100, R215). -/
inductive HostAct where
  /-- RESET: assert and release the one reset (R230). -/
  | reset
  /-- Assert and release a unit's own reset, where the platform has one (R230). -/
  | resetUnit (u : UnitId)
  /-- WR: write a word of the platform's width to a control register (R53, R94, R100). -/
  | write (cr : CrNum) (n : Nat)
  /-- Read a control register (R44, R53). -/
  | read (cr : CrNum)
  /-- PUT or END: put one input item at the end of a unit's input stream (R54, R100). -/
  | put (u : UnitId) (item : InItem)
  /-- Take the next item from the front of a unit's output stream (R44, R54). -/
  | take (u : UnitId)
  /-- Request the operation named by an OP word on the next message (R80, R101). -/
  | op (w : Nat)
  /-- RUN: let both units step until their input streams are empty (R100). -/
  | run
  deriving DecidableEq, Repr

/-- The agents that can move (R20). -/
inductive Agent where
  | host
  | enc
  | dec
  deriving DecidableEq, Repr

/-- The whole state. `script` holds the host actions not yet performed, in order; `sched` says which agent makes each
of the next steps, and where it is empty the order of R100 applies (notes/assumptions/6.md). `reads` holds what the host
has read from the control registers. -/
structure State where
  encCtrl : BitVec 2
  decCtrl : BitVec 1
  enc : EncUnit
  dec : DecUnit
  script : List HostAct
  sched : List Agent
  rx : Consumer
  reads : List (CrNum × Nat)
  deriving DecidableEq, Repr

/-- A fault of the model. `MalformedEncoding` is none: that exception is taken, a next state (R204). -/
inductive Fault where
  /-- Raised by an encoder step that begins with `ENC.cnt = 3`, a value the spec says is never reached and gives no rule
  for (R26, R43). Safe: the model stops; unreachable from reset (notes/assumptions/7.md). -/
  | encCntThree
  deriving DecidableEq, Repr

/-- A refusal of the model. -/
inductive Refusal where
  /-- Raised by an arm of `exec` that has no meaning yet. Safe. -/
  | notModelled (mnemonic : String)
  /-- Raised by a step whose host action names an OP value of 6 or 7, which cannot be formed (R95, V2). Safe. -/
  | opUnformable
  /-- Raised by a step that meets a word with more bits than its port has (R80; U13). Safe. -/
  | wordTooWide
  /-- Raised by a step in which the consumer meets an output item the units never produce (V4). Safe. -/
  | reservedOutput
  deriving DecidableEq, Repr

/-- The encoder after reset (R42). `cnt`, `busy` and the streams are the spec's; the values of `cfgV`, `cfgP`, `b1` and
`b2` are a DESIGN CHOICE, unsafe (the spec says unspecified, notes/assumptions/1.md). -/
def EncUnit.reset : EncUnit :=
  { cfgV := .std, cfgP := false, b1 := 0x00#8, b2 := 0x00#8, cnt := 0#2, busy := false,
    inp := [], outTaken := [], outWait := [] }

/-- The decoder after reset (R42). `cnt`, `busy` and the streams are the spec's; the values of `cfgV`, `s1`, `s2` and
`s3` are a DESIGN CHOICE, unsafe (the spec says unspecified, notes/assumptions/1.md). -/
def DecUnit.reset : DecUnit :=
  { cfgV := .std, s1 := 0#6, s2 := 0#6, s3 := 0#6, cnt := 0#2, busy := false,
    inp := [], outTaken := [], outWait := [] }

/-- A consumer that has received nothing. -/
def Consumer.empty : Consumer :=
  { encChars := [], encResults := [], decBytes := [], decResults := [] }

/-- The machine right after reset (R42, R230), with no host action pending. -/
def State.reset : State :=
  { encCtrl := 0b00#2, decCtrl := 0b0#1, enc := EncUnit.reset, dec := DecUnit.reset,
    script := [], sched := [], rx := Consumer.empty, reads := [] }

end Sys2Proof.Machine
end

