-- ==== Sys2Proof/Machine/Flags.lean ====
section
/-! DEFINITION. The one status flag of the hardware, the `err` bit of the decoder's END output item (R36, R201, R202).
It is computed in the step that consumes END and stored nowhere. -/

namespace Sys2Proof.Machine

/-- `MalformedEncoding` holds when END is consumed with exactly one symbol held (R201). -/
def malformed (d : DecUnit) : Bool := d.cnt == 1#2

/-- The `err` bit of the END item that closes the decoder's message (R36, R87, R202). -/
def errFlag (d : DecUnit) : BitVec 1 := if malformed d then Config.errMalformed else Config.errNone

end Sys2Proof.Machine
end

