-- ==== Sys2Proof/Machine/Ops.lean ====
section
/-! DEFINITION. The shared operations: updates of the state's parts, `Out.emit` (R57), the message starts (R141, R171),
the end of a message, and the one exception (R204). There is no return from it (R211) and no writable memory (R55). -/

namespace Sys2Proof.Machine

/-- Write the whole of ENC_CTRL (R21, R64). -/
def State.setEncCtrl (s : State) (n : BitVec 2) : State := { s with encCtrl := n }
/-- Write the whole of DEC_CTRL (R28, R64). -/
def State.setDecCtrl (s : State) (n : BitVec 1) : State := { s with decCtrl := n }
/-- Replace the encoder unit. -/
def State.setEnc (s : State) (e : EncUnit) : State := { s with enc := e }
/-- Replace the decoder unit. -/
def State.setDec (s : State) (d : DecUnit) : State := { s with dec := d }
/-- Replace the pending host actions. -/
def State.setScript (s : State) (l : List HostAct) : State := { s with script := l }
/-- Replace the schedule. -/
def State.setSched (s : State) (l : List Agent) : State := { s with sched := l }
/-- Replace what the consumer has received. -/
def State.setRx (s : State) (c : Consumer) : State := { s with rx := c }
/-- Replace the list of values read. -/
def State.setReads (s : State) (l : List (CrNum × Nat)) : State := { s with reads := l }

/-- `Out.emit` of several items in the order listed (R57). -/
def EncUnit.emit (e : EncUnit) (ws : List OutItem) : EncUnit := { e with outWait := e.outWait ++ ws }
/-- `Out.emit` of several items in the order listed (R57). -/
def DecUnit.emit (d : DecUnit) (ws : List OutItem) : DecUnit := { d with outWait := d.outWait ++ ws }

/-- `cnt <- 0`, `busy <- 0`: the unit is idle after END (R40, R145 to R147). -/
def EncUnit.idle (e : EncUnit) : EncUnit := { e with cnt := 0#2, busy := false }
/-- `cnt <- 0`, `busy <- 0`: the unit is idle after END (R40, R177 to R180). -/
def DecUnit.idle (d : DecUnit) : DecUnit := { d with cnt := 0#2, busy := false }

/-- Message start of the encoder (R141): an idle unit latches ENC_CTRL and becomes busy; a busy unit does not read it. -/
def encLatch (s : State) : EncUnit :=
  if s.enc.busy then s.enc
  else { s.enc with cfgV := encCtrlVariant s.encCtrl, cfgP := encCtrlPad s.encCtrl, busy := true }

/-- Message start of the decoder (R171): an idle unit latches DEC_CTRL and becomes busy; a busy unit does not read it. -/
def decLatch (s : State) : DecUnit :=
  if s.dec.busy then s.dec else { s.dec with cfgV := decCtrlVariant s.decCtrl, busy := true }

/-- Taking the exception `raise MalformedEncoding` (R204): emit END(1) and return to idle. Nothing is saved, no mode or
mask changes, control goes nowhere. -/
def raiseMalformed (d : DecUnit) : DecUnit := (d.emit [outEnd (errFlag d)]).idle

/-- The CHAR items of a 3-byte group (R133 at n = 3, R144). -/
def group3Items (v : Variant) (byte1 byte2 byte3 : Byte) : List OutItem :=
  [outData (alpha v (field1 byte1)), outData (alpha v (field2 byte1 byte2)),
    outData (alpha v (field3 byte2 byte3)), outData (alpha v (field4 byte3))]

/-- The CHAR items of a last group of two bytes, with `=` if padding is on (R133 at n = 2, R147). -/
def group2Items (v : Variant) (p : Bool) (byte1 byte2 : Byte) : List OutItem :=
  [outData (alpha v (field1 byte1)), outData (alpha v (field2 byte1 byte2)), outData (alpha v (field3 byte2 0x00#8))]
    ++ if p then [outData Config.padChar] else []

/-- The CHAR items of a last group of one byte, with `==` if padding is on (R133 at n = 1, R146). -/
def group1Items (v : Variant) (p : Bool) (byte1 : Byte) : List OutItem :=
  [outData (alpha v (field1 byte1)), outData (alpha v (field2 byte1 0x00#8))]
    ++ if p then [outData Config.padChar, outData Config.padChar] else []

/-- The host's view of a control register: the defined bits, zero above them (R53, R94). -/
def readCr (s : State) (cr : CrNum) : Nat :=
  match cr with
  | .cr0 => s.encCtrl.toNat
  | .cr1 => s.decCtrl.toNat

end Sys2Proof.Machine
end

