-- ==== Sys2Proof/Machine/Control.lean ====
section
/-! DEFINITION. Writes of the control registers (R21, R28, R53, R64, R236): the defined bits are replaced at once and
nothing else changes; the unit reads them at its next message start only. -/

namespace Sys2Proof.Machine

/-- ENC_CTRL: write CR0 (R21, R53, R82). -/
def execEncCtrl (n : BitVec 2) (s : State) : Host.Outcome State Fault Refusal := .next (s.setEncCtrl n)

/-- DEC_CTRL: write CR1 (R28, R53, R83). -/
def execDecCtrl (n : BitVec 1) (s : State) : Host.Outcome State Fault Refusal := .next (s.setDecCtrl n)

end Sys2Proof.Machine
end

