-- ==== Sys2Proof/Machine/DecoderItems.lean ====
section
/-! DEFINITION. The decoder's steps (spec/42_decoder.md section 3): what the unit does with an input item. The item has
been taken from DEC.In by the fetch (Machine/Fetch.lean); R171 applies first, in the same step. -/

namespace Sys2Proof.Machine

/-- A symbol of value `val` at the current `cnt`: R173, R174, R175 hold it, R176 emits the three bytes. -/
def decSymbol (val : Sym) (d : DecUnit) : DecUnit :=
  if d.cnt = 0#2 then { d with s1 := val, cnt := 1#2 }
  else if d.cnt = 1#2 then { d with s2 := val, cnt := 2#2 }
  else if d.cnt = 2#2 then { d with s3 := val, cnt := 3#2 }
  else { d.emit [outData (pack1 d.s1 d.s2), outData (pack2 d.s2 d.s3), outData (pack3 d.s3 val)] with cnt := 0#2 }

/-- DEC.IN.CHAR: the character is classified with the latched variant; a foreign one is dropped (R172, R93), a symbol
goes by R173 to R176. -/
def execDecInChar (c : Byte) (s : State) : Host.Outcome State Fault Refusal :=
  let d := decLatch s
  match rev d.cfgV c with
  | none => .next (s.setDec d)
  | some val => .next (s.setDec (decSymbol val d))

/-- The end of a decoder message: the error is tested before anything is emitted (R209); R178 at `cnt = 1`, R177 at
`cnt = 0`, R179 at `cnt = 2`, R180 at `cnt = 3`. -/
def decFinish (d : DecUnit) : DecUnit :=
  if malformed d then raiseMalformed d
  else if d.cnt = 0#2 then (d.emit [outEnd (errFlag d)]).idle
  else if d.cnt = 2#2 then (d.emit [outData (pack1 d.s1 d.s2), outEnd (errFlag d)]).idle
  else (d.emit [outData (pack1 d.s1 d.s2), outData (pack2 d.s2 d.s3), outEnd (errFlag d)]).idle

/-- DEC.IN.END: the item's `data` field is ignored (R102). -/
def execDecInEnd (_ignored : Byte) (s : State) : Host.Outcome State Fault Refusal :=
  .next (s.setDec (decFinish (decLatch s)))

end Sys2Proof.Machine
end

