-- ==== Sys2Proof/Machine/EncoderItems.lean ====
section
/-! DEFINITION. The encoder's steps (spec/41_encoder.md section 3): what the unit does with an input item. The item has
been taken from ENC.In by the fetch (Machine/Fetch.lean); R141 applies first, in the same step. -/

namespace Sys2Proof.Machine

/-- ENC.IN.DATA: R142 at `cnt = 0`, R143 at `cnt = 1`, R144 at `cnt = 2`. -/
def execEncInData (b : Byte) (s : State) : Host.Outcome State Fault Refusal :=
  let e := encLatch s
  if e.cnt = 0#2 then .next (s.setEnc { e with b1 := b, cnt := 1#2 })
  else if e.cnt = 1#2 then .next (s.setEnc { e with b2 := b, cnt := 2#2 })
  else if e.cnt = 2#2 then .next (s.setEnc { e.emit (group3Items e.cfgV e.b1 e.b2 b) with cnt := 0#2 })
  else .fault .encCntThree

/-- ENC.IN.END: R145 at `cnt = 0`, R146 at `cnt = 1`, R147 at `cnt = 2`. The item's `data` field is ignored (R102). -/
def execEncInEnd (_ignored : Byte) (s : State) : Host.Outcome State Fault Refusal :=
  let e := encLatch s
  if e.cnt = 0#2 then .next (s.setEnc (e.emit [outEnd Config.errNone]).idle)
  else if e.cnt = 1#2 then .next (s.setEnc (e.emit (group1Items e.cfgV e.cfgP e.b1 ++ [outEnd Config.errNone])).idle)
  else if e.cnt = 2#2 then
    .next (s.setEnc (e.emit (group2Items e.cfgV e.cfgP e.b1 e.b2 ++ [outEnd Config.errNone])).idle)
  else .fault .encCntThree

end Sys2Proof.Machine
end

