-- ==== Sys2Proof/Machine/Operations.lean ====
section
/-! DEFINITION. The six operations (R80, R81, R137 to R140, R169, R170): the control register is set as the rule says and
the unit then consumes the next message of its input stream, END included, as in the expansions of R101. Where no END
waits, the unit consumes what there is and stays busy (R240). DESIGN CHOICE, see notes/assumptions/4.md. -/

namespace Sys2Proof.Machine

/-- The encoder's step on a raw input item (R84). -/
def encItem (w : InItem) (s : State) : Host.Outcome State Fault Refusal :=
  if inItemEnd w then execEncInEnd (inItemData w) s else execEncInData (inItemData w) s

/-- The decoder's step on a raw input item (R85). -/
def decItem (w : InItem) (s : State) : Host.Outcome State Fault Refusal :=
  if inItemEnd w then execDecInEnd (inItemData w) s else execDecInChar (inItemData w) s

/-- The encoder takes items (R56) from the given stream up to and including the first END. -/
def encMessage : List InItem → State → Host.Outcome State Fault Refusal
  | [], s => .next s
  | w :: rest, s =>
    match encItem w (s.setEnc { s.enc with inp := rest }) with
    | .next t => if inItemEnd w then .next t else encMessage rest t
    | .fault r => .fault r
    | .refused r => .refused r

/-- The decoder takes items (R56) from the given stream up to and including the first END. -/
def decMessage : List InItem → State → Host.Outcome State Fault Refusal
  | [], s => .next s
  | w :: rest, s =>
    match decItem w (s.setDec { s.dec with inp := rest }) with
    | .next t => if inItemEnd w then .next t else decMessage rest t
    | .fault r => .fault r
    | .refused r => .refused r

/-- An encoder operation under the given ENC_CTRL. -/
def encOperation (n : BitVec 2) (s : State) : Host.Outcome State Fault Refusal :=
  encMessage s.enc.inp (s.setEncCtrl n)

/-- A decoder operation under the given DEC_CTRL. -/
def decOperation (n : BitVec 1) (s : State) : Host.Outcome State Fault Refusal :=
  decMessage s.dec.inp (s.setDecCtrl n)

/-- ENC.STD.NOPAD: `ENC_CTRL = 0b00` (R137). -/
def execEncStdNopad (s : State) : Host.Outcome State Fault Refusal := encOperation 0b00#2 s

/-- ENC.URL.NOPAD: `ENC_CTRL = 0b01` (R138). -/
def execEncUrlNopad (s : State) : Host.Outcome State Fault Refusal := encOperation 0b01#2 s

/-- ENC.STD.PAD: `ENC_CTRL = 0b10` (R139). -/
def execEncStdPad (s : State) : Host.Outcome State Fault Refusal := encOperation 0b10#2 s

/-- ENC.URL.PAD: `ENC_CTRL = 0b11` (R140). -/
def execEncUrlPad (s : State) : Host.Outcome State Fault Refusal := encOperation 0b11#2 s

/-- DEC.STD: `DEC_CTRL = 0b0` (R169). -/
def execDecStd (s : State) : Host.Outcome State Fault Refusal := decOperation 0b0#1 s

/-- DEC.URL: `DEC_CTRL = 0b1` (R170). -/
def execDecUrl (s : State) : Host.Outcome State Fault Refusal := decOperation 0b1#1 s

end Sys2Proof.Machine
end

