-- ==== Sys2Proof/Machine/OutputItems.lean ====
section
/-! DEFINITION. What the consumer does with an output item it has taken (spec/60_exceptions.md R205, R206;
spec/70_reset_and_hazards.md R237): it collects the message in hand and, at END, obtains the message's result. -/

namespace Sys2Proof.Machine

/-- ENC.OUT.CHAR: one more character of the encoder message in hand (R205). -/
def execEncOutChar (c : Byte) (s : State) : Host.Outcome State Fault Refusal :=
  .next (s.setRx { s.rx with encChars := s.rx.encChars ++ [c] })

/-- ENC.OUT.END0: the result of the encoder message is the characters before it (R205, last sentence). -/
def execEncOutEnd0 (s : State) : Host.Outcome State Fault Refusal :=
  .next (s.setRx { s.rx with encChars := [], encResults := s.rx.encResults ++ [s.rx.encChars] })

/-- DEC.OUT.BYTE: one more byte of the decoder message in hand, provisional until END(0) (R205, R237). -/
def execDecOutByte (b : Byte) (s : State) : Host.Outcome State Fault Refusal :=
  .next (s.setRx { s.rx with decBytes := s.rx.decBytes ++ [b] })

/-- DEC.OUT.END0: `result = ok(z)` (R205). -/
def execDecOutEnd0 (s : State) : Host.Outcome State Fault Refusal :=
  .next (s.setRx { s.rx with decBytes := [], decResults := s.rx.decResults ++ [.ok s.rx.decBytes] })

/-- DEC.OUT.END1: `result = error(MalformedEncoding)`, and the bytes in hand are discarded (R205, R206). -/
def execDecOutEnd1 (s : State) : Host.Outcome State Fault Refusal :=
  .next (s.setRx { s.rx with decBytes := [], decResults := s.rx.decResults ++ [.malformedEncoding] })

end Sys2Proof.Machine
end

