-- ==== Sys2Proof/Machine/Dispatch.lean ====
section
/-! DEFINITION. One arm per row of spec/opcode_table.json, each one call of its meaning. -/

namespace Sys2Proof.Machine

def exec (i : Instr) (s : State) : Host.Outcome State Fault Refusal :=
  match i with
  | .encStdNopad => Sys2Proof.Machine.execEncStdNopad s
  | .encUrlNopad => Sys2Proof.Machine.execEncUrlNopad s
  | .encStdPad => Sys2Proof.Machine.execEncStdPad s
  | .encUrlPad => Sys2Proof.Machine.execEncUrlPad s
  | .decStd => Sys2Proof.Machine.execDecStd s
  | .decUrl => Sys2Proof.Machine.execDecUrl s
  | .encInData b => Sys2Proof.Machine.execEncInData b s
  | .encInEnd d => Sys2Proof.Machine.execEncInEnd d s
  | .decInChar c => Sys2Proof.Machine.execDecInChar c s
  | .decInEnd d => Sys2Proof.Machine.execDecInEnd d s
  | .encOutChar c => Sys2Proof.Machine.execEncOutChar c s
  | .encOutEnd0 => Sys2Proof.Machine.execEncOutEnd0 s
  | .decOutByte b => Sys2Proof.Machine.execDecOutByte b s
  | .decOutEnd0 => Sys2Proof.Machine.execDecOutEnd0 s
  | .decOutEnd1 => Sys2Proof.Machine.execDecOutEnd1 s
  | .encCtrl n => Sys2Proof.Machine.execEncCtrl n s
  | .decCtrl n => Sys2Proof.Machine.execDecCtrl n s

end Sys2Proof.Machine
end

