-- ==== Sys2Proof/Machine/Fetch.lean ====
section
/-! DEFINITION. Who moves next and which word it meets. A unit takes the front item of its input stream (R56); the host
performs its next action (R100). -/

namespace Sys2Proof.Machine

/-- What a step finds to do. -/
inductive Fetched where
  /-- Nothing: the agent waits, or its turn has no effect on the hardware (R56). -/
  | wait (s : State)
  /-- A host action that carries no word to be decoded. -/
  | act (a : HostAct) (s : State)
  /-- A word on a port, and the state with the word taken from where it stood. -/
  | word (p : Port) (w : Nat) (s : State)
  deriving DecidableEq, Repr

/-- The agent whose turn it is when the schedule is empty: script lines in order, units at RUN and after the last line,
the encoder before the decoder (R100; any order gives the same streams, R68). DESIGN CHOICE, notes/assumptions/6.md. -/
def defaultAgent (s : State) : Agent :=
  let unit : Agent := if s.enc.inp ≠ [] then .enc else if s.dec.inp ≠ [] then .dec else .host
  match s.script with
  | [] => unit
  | .run :: _ => unit
  | _ :: _ => .host

/-- The agent that moves in the next step. -/
def nextAgent (s : State) : Agent :=
  match s.sched with
  | a :: _ => a
  | [] => defaultAgent s

/-- The encoder's turn: with an empty input stream it waits (R56). -/
def fetchEnc (s : State) : Fetched :=
  match s.enc.inp with
  | [] => .wait s
  | w :: rest => .word .encIn w.toNat (s.setEnc { s.enc with inp := rest })

/-- The decoder's turn: with an empty input stream it waits (R56). -/
def fetchDec (s : State) : Fetched :=
  match s.dec.inp with
  | [] => .wait s
  | w :: rest => .word .decIn w.toNat (s.setDec { s.dec with inp := rest })

/-- The consumer takes the front item of a unit's output stream (R54); with none there it takes nothing. -/
def fetchOut (u : UnitId) (s : State) : Fetched :=
  match u with
  | .enc =>
    match s.enc.outWait with
    | [] => .wait s
    | w :: rest =>
      .word .encOut w.toNat (s.setEnc { s.enc with outTaken := s.enc.outTaken ++ [w], outWait := rest })
  | .dec =>
    match s.dec.outWait with
    | [] => .wait s
    | w :: rest =>
      .word .decOut w.toNat (s.setDec { s.dec with outTaken := s.dec.outTaken ++ [w], outWait := rest })

/-- The host's turn: the next line of its script. RUN is done when both input streams are empty (R100). -/
def fetchHost (s : State) : Fetched :=
  match s.script with
  | [] => .wait s
  | a :: rest =>
    match a with
    | .op w => .word .op w (s.setScript rest)
    | .write .cr0 n => .word .cr0 n (s.setScript rest)
    | .write .cr1 n => .word .cr1 n (s.setScript rest)
    | .take u => fetchOut u (s.setScript rest)
    | .run => if s.enc.inp = [] ∧ s.dec.inp = [] then .wait (s.setScript rest) else .wait s
    | .reset => .act .reset (s.setScript rest)
    | .resetUnit u => .act (.resetUnit u) (s.setScript rest)
    | .read cr => .act (.read cr) (s.setScript rest)
    | .put u w => .act (.put u w) (s.setScript rest)

/-- The next agent's turn is used up, and that agent finds what it has to do. -/
def fetch (s : State) : Fetched :=
  let s' := s.setSched s.sched.tail
  match nextAgent s with
  | .host => fetchHost s'
  | .enc => fetchEnc s'
  | .dec => fetchDec s'

/-- Place a word of the table where the next step meets it: at the front of the stream of its port, or as the host's
next action, with the turn given to the agent that takes it. -/
def placeWord (p : Port) (w : Nat) (s : State) : State :=
  match p with
  | .op => (s.setScript (.op w :: s.script)).setSched (.host :: s.sched)
  | .cr0 => (s.setScript (.write .cr0 w :: s.script)).setSched (.host :: s.sched)
  | .cr1 => (s.setScript (.write .cr1 w :: s.script)).setSched (.host :: s.sched)
  | .encIn => (s.setEnc { s.enc with inp := BitVec.ofNat 9 w :: s.enc.inp }).setSched (.enc :: s.sched)
  | .decIn => (s.setDec { s.dec with inp := BitVec.ofNat 9 w :: s.dec.inp }).setSched (.dec :: s.sched)
  | .encOut =>
    ((s.setEnc { s.enc with outWait := BitVec.ofNat 10 w :: s.enc.outWait }).setScript (.take .enc :: s.script)).setSched
      (.host :: s.sched)
  | .decOut =>
    ((s.setDec { s.dec with outWait := BitVec.ofNat 10 w :: s.dec.outWait }).setScript (.take .dec :: s.script)).setSched
      (.host :: s.sched)

/-- The refusal under which a rejected word stops the step. -/
def refusalOf (r : Reject) : Refusal :=
  match r with
  | .opUnformable => .opUnformable
  | .wordTooWide => .wordTooWide
  | .reservedOutput => .reservedOutput

end Sys2Proof.Machine
end

