-- ==== Sys2Proof/Machine/HostActs.lean ====
section
/-! DEFINITION. The host actions that carry no word of the table to be run: reset (R230, R232), reads of the control
registers (R53, R65) and putting an input item (R54). -/

namespace Sys2Proof.Machine

/-- Reset of the encoder: control register, registers and streams as in R42; the consumer discards what it had received
of an unfinished encoder message (R232, R239) and keeps finished results (R232: not recalled). -/
def resetEnc (s : State) : State :=
  { s with encCtrl := State.reset.encCtrl, enc := EncUnit.reset, rx := { s.rx with encChars := [] } }

/-- Reset of the decoder, as `resetEnc`. -/
def resetDec (s : State) : State :=
  { s with decCtrl := State.reset.decCtrl, dec := DecUnit.reset, rx := { s.rx with decBytes := [] } }

/-- The one reset input acts on both units (R230). -/
def resetBoth (s : State) : State := resetDec (resetEnc s)

/-- Put one item at the end of a unit's input stream (R54). -/
def putItem (u : UnitId) (w : InItem) (s : State) : State :=
  match u with
  | .enc => s.setEnc { s.enc with inp := s.enc.inp ++ [w] }
  | .dec => s.setDec { s.dec with inp := s.dec.inp ++ [w] }

/-- The value of a control register goes to the host; nothing else changes (R65). -/
def readAct (cr : CrNum) (s : State) : State := s.setReads (s.reads ++ [(cr, readCr s cr)])

/-- The effect of a host action that carries no word to be decoded. `write`, `take`, `op` and `run` are handled by the
fetch (Machine/Fetch.lean) and change nothing here. -/
def hostAct (a : HostAct) (s : State) : State :=
  match a with
  | .reset => resetBoth s
  | .resetUnit .enc => resetEnc s
  | .resetUnit .dec => resetDec s
  | .read cr => readAct cr s
  | .put u w => putItem u w s
  | .write _ _ | .take _ | .op _ | .run => s

end Sys2Proof.Machine
end

