-- ==== Sys2Proof/Machine/Step.lean ====
section
/-! DEFINITION. One step of the machine: one item consumed by a unit, or one action of the host, or a turn in which the
agent has nothing to do. -/

namespace Sys2Proof.Machine

/-- The step: fetch, decode, run. -/
def step (s : State) : Host.Outcome State Fault Refusal :=
  match fetch s with
  | .wait t => .next t
  | .act a t => .next (hostAct a t)
  | .word p w t =>
    match decode p w with
    | .ok i => exec i t
    | .rejected r => .refused (refusalOf r)

/-- The table word placed so that the very next step runs it (notes/assumptions/2.md). -/
def State.withFetchWord (s : State) (nbits w : Nat) : State := placeWord (tablePort nbits w) w s

end Sys2Proof.Machine
end

