-- ==== Sys2Proof/Machine/Message.lean ====
section
/-! DEFINITION. The message level (spec/41_encoder.md section 1, spec/42_decoder.md section 1): the functions `Encode`
and `Decode`, which are normative (R11). The step machine does not use them; the two levels must agree (R148, R181). -/

namespace Sys2Proof.Machine

/-- The grouper: consecutive groups of at most 3 bytes (R131). -/
def encGroups : List Byte → List (List Byte)
  | [] => []
  | [x] => [[x]]
  | [x, y] => [[x, y]]
  | x :: y :: z :: rest => [x, y, z] :: encGroups rest

/-- `EncGroup(v, p, g)` (R133); a group has 1, 2 or 3 bytes (R131). -/
def encGroup (v : Variant) (p : Bool) (g : List Byte) : List Byte :=
  match g with
  | [x, y, z] => [alpha v (field1 x), alpha v (field2 x y), alpha v (field3 y z), alpha v (field4 z)]
  | [x, y] =>
    [alpha v (field1 x), alpha v (field2 x y), alpha v (field3 y 0x00#8)] ++ if p then [Config.padChar] else []
  | [x] =>
    [alpha v (field1 x), alpha v (field2 x 0x00#8)] ++ if p then [Config.padChar, Config.padChar] else []
  | _ => []

/-- `Encode(v, p, x)` (R130, R134). -/
def encodeMsg (v : Variant) (p : Bool) (x : List Byte) : List Byte := (encGroups x).flatMap (encGroup v p)

/-- The filter: the values of the symbols of `v`, in order, and nothing for any other character (R161). -/
def decFilter (v : Variant) (t : List Byte) : List Sym := t.filterMap (rev v)

/-- The parser: consecutive groups of at most 4 symbols (R162). -/
def decGroups : List Sym → List (List Sym)
  | [] => []
  | [a] => [[a]]
  | [a, b] => [[a, b]]
  | [a, b, c] => [[a, b, c]]
  | a :: b :: c :: d :: rest => [a, b, c, d] :: decGroups rest

/-- `DecGroup` (R160, R164 to R166); a group of one symbol gives no byte (R91). -/
def decGroup (h : List Sym) : List Byte :=
  match h with
  | [a, b] => [pack1 a b]
  | [a, b, c] => [pack1 a b, pack2 b c]
  | [a, b, c, d] => [pack1 a b, pack2 b c, pack3 c d]
  | _ => []

/-- `Decode(v, t)` (R160, R163). -/
def decodeMsg (v : Variant) (t : List Byte) : DecResult :=
  let y := decFilter v t
  if y.length % 4 = 1 then .malformedEncoding else .ok ((decGroups y).flatMap decGroup)

end Sys2Proof.Machine
end

