-- ==== Sys2Proof/WellFormed.lean ====
section
/-! DEFINITION. Which terms of `Instr` are words of this hardware. The types of the constructors already carry every
width; the one check left is the restriction on the characters the encoder can produce. -/

namespace Sys2Proof

/-- A character code the encoder can emit: one of the 64 of an alphabet, or `PAD_CHAR` (R86, V4). -/
def encCharOk (c : Byte) : Bool :=
  Machine.isSymbol .std c || Machine.isSymbol .url c || c == Config.padChar

/-- Well-formedness: an ENC.OUT.CHAR item carries a code the encoder can emit (R86, V4); every other word is
unrestricted, R103 for bytes into the encoder, R93 for characters into the decoder. -/
def Instr.wellFormed (i : Instr) : Bool :=
  match i with
  | .encOutChar c => encCharOk c
  | .encStdNopad | .encUrlNopad | .encStdPad | .encUrlPad | .decStd | .decUrl => true
  | .encInData _ | .encInEnd _ | .decInChar _ | .decInEnd _ => true
  | .encOutEnd0 | .decOutByte _ | .decOutEnd0 | .decOutEnd1 => true
  | .encCtrl _ | .decCtrl _ => true

end Sys2Proof
end

