-- ==== Sys2Proof/Safety.lean ====
section
/-! DEFINITION. The terms in which claims about runs are stated: the invariant of the machine, the configuration that
applies to the next item, a unit fed with items while the host rewrites its control register, and runs of the step. -/

namespace Sys2Proof.Machine

/-- The variant under which the encoder processes its next item: latched while busy, read from ENC_CTRL at a message
start (R22, R141). -/
def encVariant (s : State) : Variant := if s.enc.busy then s.enc.cfgV else variantOfBit (s.encCtrl.getLsbD 0)

/-- The padding flag under which the encoder processes its next item (R23, R141). -/
def encPad (s : State) : Bool := if s.enc.busy then s.enc.cfgP else s.encCtrl.getLsbD 1

/-- The variant under which the decoder processes its next item (R29, R171). -/
def decVariant (s : State) : Variant := if s.dec.busy then s.dec.cfgV else variantOfBit (s.decCtrl.getLsbD 0)

/-- An item the encoder can produce: END(0), or CHAR of one of the 65 characters (R86, R102, V4). -/
def encOutOk (w : OutItem) : Prop := w = 0x200#10 ∨ ∃ c : Byte, w = 0#2 ++ c ∧ encCharOk c = true

/-- An item the decoder can produce: END(0), END(1) or BYTE (R87, R102, V4). -/
def decOutOk (w : OutItem) : Prop := w = 0x200#10 ∨ w = 0x300#10 ∨ ∃ b : Byte, w = 0#2 ++ b

/-- The invariant: the legal values of `cnt`, idle units hold no group (R43), and every item on an output stream is one
its unit can produce (R86, R87, R102). -/
structure Inv (s : State) : Prop where
  encCnt : s.enc.cnt ≠ 3#2
  encIdle : s.enc.busy = false → s.enc.cnt = 0#2
  decIdle : s.dec.busy = false → s.dec.cnt = 0#2
  encOut : ∀ w ∈ s.enc.out, encOutOk w
  decOut : ∀ w ∈ s.dec.out, decOutOk w

/-- The encoder consumes items one after another; after each the host leaves the given value in ENC_CTRL. -/
def encFeed : List (InItem × BitVec 2) → State → Host.Outcome State Fault Refusal
  | [], s => .next s
  | (w, n) :: rest, s =>
    match encItem w s with
    | .next t => encFeed rest (t.setEncCtrl n)
    | .fault r => .fault r
    | .refused r => .refused r

/-- The decoder consumes items one after another; after each the host leaves the given value in DEC_CTRL. -/
def decFeed : List (InItem × BitVec 1) → State → Host.Outcome State Fault Refusal
  | [], s => .next s
  | (w, n) :: rest, s =>
    match decItem w s with
    | .next t => decFeed rest (t.setDecCtrl n)
    | .fault r => .fault r
    | .refused r => .refused r

/-- `k` steps of the machine, stopping at the first fault or refusal. -/
def steps : Nat → State → Host.Outcome State Fault Refusal
  | 0, s => .next s
  | k + 1, s =>
    match step s with
    | .next t => steps k t
    | .fault r => .fault r
    | .refused r => .refused r

/-- The input items of an encoder message (R14, R84). -/
def encMessageItems (x : List Byte) (d : Byte) : List InItem := x.map inData ++ [inEnd d]

/-- The input items of a decoder message (R14, R85). -/
def decMessageItems (t : List Byte) (d : Byte) : List InItem := t.map inData ++ [inEnd d]

/-- An encoder operation yields `Encode` (R137 to R140): on an idle encoder with a whole message at the front of its
input stream it consumes exactly that message, appends the characters and END(0), leaves the encoder idle, the latched
configuration and ENC_CTRL as the operation sets them, and changes nothing else but the encoder's holding registers `b1`
and `b2`, which are dead then (R41) and left open here. -/
def EncOperationYields (i : Instr) (n : BitVec 2) (v : Variant) (p : Bool) : Prop :=
  ∀ (s : State) (x : List Byte) (d : Byte) (rest : List InItem),
    s.enc.busy = false → s.enc.cnt = 0#2 → s.enc.inp = encMessageItems x d ++ rest →
    ∃ t, exec i s = .next t ∧
      t.enc.outWait = s.enc.outWait ++ (encodeMsg v p x).map outData ++ [0x200#10] ∧
      t.enc.inp = rest ∧ t.enc.busy = false ∧ t.enc.cnt = 0#2 ∧ t.enc.outTaken = s.enc.outTaken ∧
      t.enc.cfgV = v ∧ t.enc.cfgP = p ∧ t.encCtrl = n ∧ { t with enc := s.enc, encCtrl := s.encCtrl } = s

/-- What the decoder appends to its output stream for the text `t` (R181): the bytes and END(0), or the bytes of the
complete groups and END(1). `w` is the decoding of the text with its last symbol character removed. -/
def DecEmits (v : Variant) (t : List Byte) (new : List OutItem) : Prop :=
  match decodeMsg v t with
  | .ok z => new = z.map outData ++ [0x200#10]
  | .malformedEncoding =>
    ∃ t1 c t2 w, t = t1 ++ c :: t2 ∧ isSymbol v c = true ∧ (∀ x ∈ t2, isSymbol v x = false) ∧
      decodeMsg v (t1 ++ t2) = .ok w ∧ w.length = 3 * ((decFilter v t).length / 4) ∧
      new = w.map outData ++ [0x300#10]

/-- A decoder operation yields `Decode` (R169, R170), as `EncOperationYields`; the decoder's holding registers `s1` to
`s3` are left open. -/
def DecOperationYields (i : Instr) (n : BitVec 1) (v : Variant) : Prop :=
  ∀ (s : State) (x : List Byte) (d : Byte) (rest : List InItem),
    s.dec.busy = false → s.dec.cnt = 0#2 → s.dec.inp = decMessageItems x d ++ rest →
    ∃ t new, exec i s = .next t ∧ t.dec.outWait = s.dec.outWait ++ new ∧ DecEmits v x new ∧
      t.dec.inp = rest ∧ t.dec.busy = false ∧ t.dec.cnt = 0#2 ∧ t.dec.outTaken = s.dec.outTaken ∧
      t.dec.cfgV = v ∧ t.decCtrl = n ∧ { t with dec := s.dec, decCtrl := s.decCtrl } = s

/-- The items of an input stream that stand after its first END; none where no END stands (R14, R98). -/
def afterEnd : List InItem → List InItem
  | [] => []
  | w :: rest => if inItemEnd w then rest else afterEnd rest

end Sys2Proof.Machine
end

