-- ==== Sys2Proof/Certificates/Slice0/Obligations.lean ====
section
/-! DEFINITION. The statements about base64_codec, each formalising a rule of spec/ (OBLIGATIONS.json gives the rules). -/

open Sys2Proof Sys2Proof.Machine

/-! ### Encodings -/

/-- Decoding the encoded word of any instruction, on the port the encoder names, gives the instruction back. -/
def Obligations.DecodeInvertsEncodeWord : Prop :=
  ∀ i : Instr, decode (encode i).1 (encode i).2 = .ok i

/-- A word of its port's width that the decoder accepts is the word the encoder writes. -/
def Obligations.EncodeInvertsDecodeWord : Prop :=
  ∀ (p : Port) (w : Nat) (i : Instr), w < 2 ^ p.width → decode p w = .ok i → encode i = (p, w)

/-- Which words each port has: OP 0 to 5, every 9-bit input item, the output items of R86 and R87, and any word written
to a control register. That the other words are refused is the model's choice (notes/assumptions/17.md and 18.md). -/
def Obligations.AcceptedWordsOfEachPort : Prop :=
  ∀ w : Nat,
    ((∃ i, decode .op w = .ok i) ↔ w ≤ 5) ∧
    ((∃ i, decode .encIn w = .ok i) ↔ w < 0x200) ∧
    ((∃ i, decode .decIn w = .ok i) ↔ w < 0x200) ∧
    ((∃ i, decode .encOut w = .ok i) ↔ (w < 0x100 ∨ w = 0x200)) ∧
    ((∃ i, decode .decOut w = .ok i) ↔ (w < 0x100 ∨ w = 0x200 ∨ w = 0x300)) ∧
    (∃ n, decode .cr0 w = .ok (.encCtrl n) ∧ n.toNat = w % 4) ∧
    (∃ n, decode .cr1 w = .ok (.decCtrl n) ∧ n.toNat = w % 2)

/-- Words written out from the spec's tables (R81 to R87) decode to what they stand for. -/
def Obligations.SpecWordsDecode : Prop :=
  decode .op 0b010 = .ok .encStdPad ∧ decode .op 0b101 = .ok .decUrl ∧
  decode .op 0b110 = .rejected .opUnformable ∧ decode .op 0b111 = .rejected .opUnformable ∧
  decode .cr0 0b10 = .ok (.encCtrl 0b10#2) ∧ decode .cr1 0b1 = .ok (.decCtrl 1#1) ∧
  decode .encIn 0b001001101 = .ok (.encInData 0x4D#8) ∧ decode .encIn 0b100000000 = .ok (.encInEnd 0x00#8) ∧
  decode .decIn 0b000111101 = .ok (.decInChar 0x3D#8) ∧ decode .decIn 0b111111111 = .ok (.decInEnd 0xFF#8) ∧
  decode .encOut 0b0001010100 = .ok (.encOutChar 0x54#8) ∧ decode .encOut 0b1000000000 = .ok .encOutEnd0 ∧
  decode .decOut 0b0011111111 = .ok (.decOutByte 0xFF#8) ∧ decode .decOut 0b1000000000 = .ok .decOutEnd0 ∧
  decode .decOut 0b1100000000 = .ok .decOutEnd1

/-! ### The tables -/

/-- The 64 entries of both variants, code by code, as the spec's table has them (R112). The codes are ASCII, which the
spec marks as taken from general knowledge (notes/assumptions/9.md). -/
def Obligations.AlphaHoldsTheListedCodes : Prop :=
  (List.range 64).map (fun n => alpha .std (BitVec.ofNat 6 n)) =
    [0x41, 0x42, 0x43, 0x44, 0x45, 0x46, 0x47, 0x48, 0x49, 0x4A, 0x4B, 0x4C, 0x4D, 0x4E, 0x4F, 0x50] ++
    [0x51, 0x52, 0x53, 0x54, 0x55, 0x56, 0x57, 0x58, 0x59, 0x5A, 0x61, 0x62, 0x63, 0x64, 0x65, 0x66] ++
    [0x67, 0x68, 0x69, 0x6A, 0x6B, 0x6C, 0x6D, 0x6E, 0x6F, 0x70, 0x71, 0x72, 0x73, 0x74, 0x75, 0x76] ++
    [0x77, 0x78, 0x79, 0x7A, 0x30, 0x31, 0x32, 0x33, 0x34, 0x35, 0x36, 0x37, 0x38, 0x39, 0x2B, 0x2F] ∧
  (List.range 64).map (fun n => alpha .url (BitVec.ofNat 6 n)) =
    [0x41, 0x42, 0x43, 0x44, 0x45, 0x46, 0x47, 0x48, 0x49, 0x4A, 0x4B, 0x4C, 0x4D, 0x4E, 0x4F, 0x50] ++
    [0x51, 0x52, 0x53, 0x54, 0x55, 0x56, 0x57, 0x58, 0x59, 0x5A, 0x61, 0x62, 0x63, 0x64, 0x65, 0x66] ++
    [0x67, 0x68, 0x69, 0x6A, 0x6B, 0x6C, 0x6D, 0x6E, 0x6F, 0x70, 0x71, 0x72, 0x73, 0x74, 0x75, 0x76] ++
    [0x77, 0x78, 0x79, 0x7A, 0x30, 0x31, 0x32, 0x33, 0x34, 0x35, 0x36, 0x37, 0x38, 0x39, 0x2D, 0x5F]

/-- REV is the inverse of ALPHA within a variant, and has no value at a code that is no entry (R115). -/
def Obligations.RevInvertsAlpha : Prop :=
  ∀ v : Variant,
    (∀ i : Sym, rev v (alpha v i) = some i) ∧
    (∀ (c : Byte) (i : Sym), rev v c = some i → alpha v i = c) ∧
    (∀ c : Byte, (∀ i : Sym, alpha v i ≠ c) → rev v c = none)

/-- The variants agree on the first 62 entries and their four other codes are pairwise different (after R113; the codes
are notes/assumptions/9.md). -/
def Obligations.VariantsDifferOnlyAt62And63 : Prop :=
  (∀ i : Sym, i.toNat ≤ 61 → alpha .std i = alpha .url i) ∧
  [alpha .std 62#6, alpha .std 63#6, alpha .url 62#6, alpha .url 63#6].Nodup

/-- The character classes of R93: the ranges common to both variants, the two characters of each variant, and every
other code foreign, `=` among them (R97). The codes are notes/assumptions/9.md. -/
def Obligations.CharacterClasses : Prop :=
  ∀ (v : Variant) (c : Byte),
    isSymbol v c = true ↔
      (0x41 ≤ c.toNat ∧ c.toNat ≤ 0x5A) ∨ (0x61 ≤ c.toNat ∧ c.toNat ≤ 0x7A) ∨ (0x30 ≤ c.toNat ∧ c.toNat ≤ 0x39) ∨
      (v = .std ∧ (c = 0x2B#8 ∨ c = 0x2F#8)) ∨ (v = .url ∧ (c = 0x2D#8 ∨ c = 0x5F#8))

/-! ### Reset -/

/-- The reset values the spec gives (R42). The registers it leaves unspecified are not named here. -/
def Obligations.ResetLeavesSpecValues : Prop :=
  State.reset.encCtrl = 0b00#2 ∧ State.reset.enc.busy = false ∧ State.reset.enc.cnt = 0#2 ∧
  State.reset.enc.inp = [] ∧ State.reset.enc.out = [] ∧
  State.reset.decCtrl = 0b0#1 ∧ State.reset.dec.busy = false ∧ State.reset.dec.cnt = 0#2 ∧
  State.reset.dec.inp = [] ∧ State.reset.dec.out = []

/-- The host's RESET, in any state: both units and both control registers get the reset values, all four streams are
emptied, and results the consumer already has are not recalled (R230, R232). A unit's own reset does this for its unit
alone and leaves the other unit, its control register and its streams as they are (R230; that both forms exist is
notes/assumptions/12.md). That the consumer also drops the unfinished message in hand is the model's choice
(notes/assumptions/13.md, after R239). -/
def Obligations.ResetAbandonsTheMessage : Prop :=
  ∀ (s : State) (script : List HostAct) (sched : List Agent), s.sched = .host :: sched →
    (s.script = .reset :: script →
      ∃ t, step s = .next t ∧
        t.encCtrl = 0b00#2 ∧ t.enc.busy = false ∧ t.enc.cnt = 0#2 ∧ t.enc.inp = [] ∧ t.enc.out = [] ∧
        t.decCtrl = 0b0#1 ∧ t.dec.busy = false ∧ t.dec.cnt = 0#2 ∧ t.dec.inp = [] ∧ t.dec.out = [] ∧
        t.rx = { s.rx with encChars := [], decBytes := [] } ∧
        t.script = script ∧ t.sched = sched ∧ t.reads = s.reads) ∧
    (s.script = .resetUnit .enc :: script →
      ∃ t, step s = .next t ∧
        t.encCtrl = 0b00#2 ∧ t.enc.busy = false ∧ t.enc.cnt = 0#2 ∧ t.enc.inp = [] ∧ t.enc.out = [] ∧
        t.decCtrl = s.decCtrl ∧ t.dec = s.dec ∧
        t.rx = { s.rx with encChars := [] } ∧
        t.script = script ∧ t.sched = sched ∧ t.reads = s.reads) ∧
    (s.script = .resetUnit .dec :: script →
      ∃ t, step s = .next t ∧
        t.decCtrl = 0b0#1 ∧ t.dec.busy = false ∧ t.dec.cnt = 0#2 ∧ t.dec.inp = [] ∧ t.dec.out = [] ∧
        t.encCtrl = s.encCtrl ∧ t.enc = s.enc ∧
        t.rx = { s.rx with decBytes := [] } ∧
        t.script = script ∧ t.sched = sched ∧ t.reads = s.reads)

/-! ### Control registers -/

/-- A write to a control register replaces its bits, a read gives them to the host, and neither changes anything else
(R53). -/
def Obligations.ControlWriteReplacesRegister : Prop :=
  ∀ s : State,
    (∀ n : BitVec 2, exec (.encCtrl n) s = .next { s with encCtrl := n }) ∧
    (∀ n : BitVec 1, exec (.decCtrl n) s = .next { s with decCtrl := n }) ∧
    hostAct (.read .cr0) s = { s with reads := s.reads ++ [(.cr0, s.encCtrl.toNat)] } ∧
    hostAct (.read .cr1) s = { s with reads := s.reads ++ [(.cr1, s.decCtrl.toNat)] }

/-- A host write of a word of any width keeps the defined bits, and a read of the register after it gives those bits
with zeros above (R94). -/
def Obligations.ReservedControlBitsIgnored : Prop :=
  ∀ (s : State) (n : Nat) (script : List HostAct) (sched : List Agent), s.sched = .host :: .host :: sched →
    (s.script = .write .cr0 n :: .read .cr0 :: script →
      steps 2 s = .next { s with
        encCtrl := BitVec.ofNat 2 n, script := script, sched := sched, reads := s.reads ++ [(.cr0, n % 4)] }) ∧
    (s.script = .write .cr1 n :: .read .cr1 :: script →
      steps 2 s = .next { s with
        decCtrl := BitVec.ofNat 1 n, script := script, sched := sched, reads := s.reads ++ [(.cr1, n % 2)] })

/-- A control-register write while the unit is busy has no effect on the steps of the message in progress (R236). -/
def Obligations.MidMessageWriteHasNoEffect : Prop :=
  ∀ (s : State) (b : Byte),
    (s.enc.busy = true → ∀ n : BitVec 2, ∀ i ∈ [Instr.encInData b, .encInEnd b],
      (∀ t, exec i s = .next t → exec i { s with encCtrl := n } = .next { t with encCtrl := n }) ∧
      (∀ r, exec i s = .fault r → exec i { s with encCtrl := n } = .fault r)) ∧
    (s.dec.busy = true → ∀ n : BitVec 1, ∀ i ∈ [Instr.decInChar b, .decInEnd b],
      ∃ t, exec i s = .next t ∧ exec i { s with decCtrl := n } = .next { t with decCtrl := n })

/-! ### The encoder's steps -/

/-- Message start of the encoder (R141): an idle unit latches VARIANT and PAD and is busy until its END; a busy one
keeps what it latched and does not read ENC_CTRL. -/
def Obligations.EncMessageStartLatches : Prop :=
  ∀ (s t : State) (b : Byte) (i : Instr), i = .encInData b ∨ i = .encInEnd b → exec i s = .next t →
    (s.enc.busy = false →
      t.enc.cfgV = (if s.encCtrl.getLsbD 0 then .url else .std) ∧ t.enc.cfgP = s.encCtrl.getLsbD 1) ∧
    (s.enc.busy = true → t.enc.cfgV = s.enc.cfgV ∧ t.enc.cfgP = s.enc.cfgP ∧
      ∀ n : BitVec 2, exec i { s with encCtrl := n } = .next { t with encCtrl := n }) ∧
    (i = .encInData b → t.enc.busy = true)

/-- DATA at `cnt = 0` is held in `b1` (R142). -/
def Obligations.EncFirstByteHeld : Prop :=
  ∀ (s : State) (b : Byte), s.enc.cnt = 0#2 →
    exec (.encInData b) s = .next { s with enc := { s.enc with
      cfgV := encVariant s, cfgP := encPad s, busy := true, b1 := b, cnt := 1#2 } }

/-- DATA at `cnt = 1` is held in `b2` (R143). -/
def Obligations.EncSecondByteHeld : Prop :=
  ∀ (s : State) (b : Byte), s.enc.cnt = 1#2 →
    exec (.encInData b) s = .next { s with enc := { s.enc with
      cfgV := encVariant s, cfgP := encPad s, busy := true, b2 := b, cnt := 2#2 } }

/-- DATA at `cnt = 2` emits the characters of the four 6-bit slices of the 24-bit group word (R144, R88). -/
def Obligations.EncThirdByteEmitsGroup : Prop :=
  ∀ (s : State) (b : Byte), s.enc.cnt = 2#2 →
    let G : BitVec 24 := s.enc.b1 ++ s.enc.b2 ++ b
    exec (.encInData b) s = .next { s with enc := { s.enc with
      cfgV := encVariant s, cfgP := encPad s, busy := true, cnt := 0#2,
      outWait := s.enc.outWait ++
        [outData (alpha (encVariant s) (G.extractLsb' 18 6)), outData (alpha (encVariant s) (G.extractLsb' 12 6)),
         outData (alpha (encVariant s) (G.extractLsb' 6 6)), outData (alpha (encVariant s) (G.extractLsb' 0 6))] } }

/-- END at `cnt = 0` emits END(0) alone, whatever the padding flag (R145). -/
def Obligations.EncEndWithoutRest : Prop :=
  ∀ (s : State) (d : Byte), s.enc.cnt = 0#2 →
    exec (.encInEnd d) s = .next { s with enc := { s.enc with
      cfgV := encVariant s, cfgP := encPad s, busy := false, cnt := 0#2, outWait := s.enc.outWait ++ [0x200#10] } }

/-- END at `cnt = 1` emits two characters, `==` if padding is on, and END(0); the absent bytes are zero (R146, R89). -/
def Obligations.EncEndAfterOneByte : Prop :=
  ∀ (s : State) (d : Byte), s.enc.cnt = 1#2 →
    let G : BitVec 24 := s.enc.b1 ++ 0x0000#16
    exec (.encInEnd d) s = .next { s with enc := { s.enc with
      cfgV := encVariant s, cfgP := encPad s, busy := false, cnt := 0#2,
      outWait := s.enc.outWait ++
        [outData (alpha (encVariant s) (G.extractLsb' 18 6)), outData (alpha (encVariant s) (G.extractLsb' 12 6))] ++
        (if encPad s then [outData Config.padChar, outData Config.padChar] else []) ++ [0x200#10] } }

/-- END at `cnt = 2` emits three characters, `=` if padding is on, and END(0); the absent byte is zero (R147, R89). -/
def Obligations.EncEndAfterTwoBytes : Prop :=
  ∀ (s : State) (d : Byte), s.enc.cnt = 2#2 →
    let G : BitVec 24 := s.enc.b1 ++ s.enc.b2 ++ 0x00#8
    exec (.encInEnd d) s = .next { s with enc := { s.enc with
      cfgV := encVariant s, cfgP := encPad s, busy := false, cnt := 0#2,
      outWait := s.enc.outWait ++
        [outData (alpha (encVariant s) (G.extractLsb' 18 6)), outData (alpha (encVariant s) (G.extractLsb' 12 6)),
         outData (alpha (encVariant s) (G.extractLsb' 6 6))] ++
        (if encPad s then [outData Config.padChar] else []) ++ [0x200#10] } }

/-- The model's choice (notes/assumptions/7.md): with `ENC.cnt = 3`, which the spec says is never reached (R26, R43), an
encoder step stops under the fault of that name. -/
def Obligations.EncStopsAtUnreachableCnt : Prop :=
  ∀ (s : State) (b : Byte), s.enc.cnt = 3#2 →
    exec (.encInData b) s = .fault .encCntThree ∧ exec (.encInEnd b) s = .fault .encCntThree

/-! ### The decoder's steps -/

/-- Message start of the decoder (R171): an idle unit latches VARIANT, classifies with it and is busy until its END; a
busy one keeps what it latched and does not read DEC_CTRL. -/
def Obligations.DecMessageStartLatches : Prop :=
  ∀ (s : State) (c : Byte) (i : Instr), i = .decInChar c ∨ i = .decInEnd c →
    ∃ t, exec i s = .next t ∧
      (s.dec.busy = false → t.dec.cfgV = (if s.decCtrl.getLsbD 0 then .url else .std) ∧
        (i = .decInChar c → (t.dec.cnt = s.dec.cnt ↔ isSymbol t.dec.cfgV c = false))) ∧
      (s.dec.busy = true → t.dec.cfgV = s.dec.cfgV ∧
        ∀ n : BitVec 1, exec i { s with decCtrl := n } = .next { t with decCtrl := n }) ∧
      (i = .decInChar c → t.dec.busy = true)

/-- A foreign character is dropped at any `cnt`: apart from the message start nothing is written or emitted (R172). -/
def Obligations.DecForeignDropped : Prop :=
  ∀ (s : State) (c : Byte), isSymbol (decVariant s) c = false →
    exec (.decInChar c) s = .next { s with dec := { s.dec with cfgV := decVariant s, busy := true } }

/-- A symbol at `cnt = 0`, `1`, `2` is held in `s1`, `s2`, `s3` (R173, R174, R175). -/
def Obligations.DecSymbolHeld : Prop :=
  ∀ (s : State) (c : Byte) (val : Sym), rev (decVariant s) c = some val →
    (s.dec.cnt = 0#2 → exec (.decInChar c) s = .next { s with dec := { s.dec with
      cfgV := decVariant s, busy := true, s1 := val, cnt := 1#2 } }) ∧
    (s.dec.cnt = 1#2 → exec (.decInChar c) s = .next { s with dec := { s.dec with
      cfgV := decVariant s, busy := true, s2 := val, cnt := 2#2 } }) ∧
    (s.dec.cnt = 2#2 → exec (.decInChar c) s = .next { s with dec := { s.dec with
      cfgV := decVariant s, busy := true, s3 := val, cnt := 3#2 } })

/-- The fourth symbol emits the three bytes of the 24-bit quad word (R176, R90). -/
def Obligations.DecFourthSymbolEmitsQuad : Prop :=
  ∀ (s : State) (c : Byte) (val : Sym), rev (decVariant s) c = some val → s.dec.cnt = 3#2 →
    let Q : BitVec 24 := s.dec.s1 ++ s.dec.s2 ++ s.dec.s3 ++ val
    exec (.decInChar c) s = .next { s with dec := { s.dec with
      cfgV := decVariant s, busy := true, cnt := 0#2,
      outWait := s.dec.outWait ++
        [outData (Q.extractLsb' 16 8), outData (Q.extractLsb' 8 8), outData (Q.extractLsb' 0 8)] } }

/-- END at `cnt = 0` emits END(0) alone (R177). -/
def Obligations.DecEndWithoutRest : Prop :=
  ∀ (s : State) (d : Byte), s.dec.cnt = 0#2 →
    exec (.decInEnd d) s = .next { s with dec := { s.dec with
      cfgV := decVariant s, busy := false, cnt := 0#2, outWait := s.dec.outWait ++ [0x200#10] } }

/-- END at `cnt = 1` raises MalformedEncoding: END(1) alone is emitted, the unit is idle, nothing is saved and nothing
else changes, DEC_CTRL and the encoder among it (R178, R204). -/
def Obligations.DecEndAfterOneSymbolRaises : Prop :=
  ∀ (s : State) (d : Byte), s.dec.cnt = 1#2 →
    exec (.decInEnd d) s = .next { s with dec := { s.dec with
      cfgV := decVariant s, busy := false, cnt := 0#2, outWait := s.dec.outWait ++ [0x300#10] } }

/-- END at `cnt = 2` emits the byte `a[5:0], b[5:4]` and END(0) (R179, R91). -/
def Obligations.DecEndAfterTwoSymbols : Prop :=
  ∀ (s : State) (d : Byte), s.dec.cnt = 2#2 →
    exec (.decInEnd d) s = .next { s with dec := { s.dec with
      cfgV := decVariant s, busy := false, cnt := 0#2,
      outWait := s.dec.outWait ++ [outData (s.dec.s1 ++ s.dec.s2.extractLsb' 4 2), 0x200#10] } }

/-- END at `cnt = 3` emits the bytes `a[5:0], b[5:4]` and `b[3:0], c[5:2]` and END(0) (R180, R91). -/
def Obligations.DecEndAfterThreeSymbols : Prop :=
  ∀ (s : State) (d : Byte), s.dec.cnt = 3#2 →
    exec (.decInEnd d) s = .next { s with dec := { s.dec with
      cfgV := decVariant s, busy := false, cnt := 0#2,
      outWait := s.dec.outWait ++
        [outData (s.dec.s1 ++ s.dec.s2.extractLsb' 4 2),
         outData (s.dec.s2.extractLsb' 0 4 ++ s.dec.s3.extractLsb' 2 4), 0x200#10] } }

/-- The discarded bits of a short last group are not checked (R168): the low four bits of `b`, the low two of `c`. -/
def Obligations.DiscardedBitsIgnored : Prop :=
  ∀ (s : State) (d : Byte) (x2 x3 : Sym),
    (s.dec.cnt = 2#2 → x2.extractLsb' 4 2 = s.dec.s2.extractLsb' 4 2 →
      ∃ t u, exec (.decInEnd d) s = .next t ∧ exec (.decInEnd d) { s with dec := { s.dec with s2 := x2 } } = .next u ∧
        t.dec.outWait = u.dec.outWait) ∧
    (s.dec.cnt = 3#2 → x3.extractLsb' 2 4 = s.dec.s3.extractLsb' 2 4 →
      ∃ t u, exec (.decInEnd d) s = .next t ∧ exec (.decInEnd d) { s with dec := { s.dec with s3 := x3 } } = .next u ∧
        t.dec.outWait = u.dec.outWait)

/-! ### The exception -/

/-- The exception is raised when, and only when, END is consumed at `cnt = 1` (R201); no other decoder item raises it.
-/
def Obligations.ErrorExactlyAtOneSymbol : Prop :=
  ∀ (s : State) (d : Byte),
    (∃ t new, exec (.decInEnd d) s = .next t ∧ t.dec.outWait = s.dec.outWait ++ new ∧
      (0x300#10 ∈ new ↔ s.dec.cnt = 1#2)) ∧
    (∃ t new, exec (.decInChar d) s = .next t ∧ t.dec.outWait = s.dec.outWait ++ new ∧ 0x300#10 ∉ new)

/-- Only the decoder raises (R200, R207): whatever runs, the streams only grow at their ends, no item the encoder gains
has `err = 1`, and none the decoder gains does unless the instruction is DEC.STD, DEC.URL or DEC.IN.END. -/
def Obligations.OnlyDecoderEndRaises : Prop :=
  ∀ (i : Instr) (s t : State), exec i s = .next t →
    ∃ newE newD, t.enc.out = s.enc.out ++ newE ∧ t.dec.out = s.dec.out ++ newD ∧
      (∀ w ∈ newE, w.getLsbD 8 = false) ∧
      (i ≠ .decStd → i ≠ .decUrl → (∀ d, i ≠ .decInEnd d) → ∀ w ∈ newD, w.getLsbD 8 = false)

/-- After the step that consumes END, failed or not, the unit is idle (R40, which the spec derives from its step
rules). -/
def Obligations.EndLeavesUnitIdle : Prop :=
  ∀ (s t : State) (d : Byte),
    (exec (.encInEnd d) s = .next t → t.enc.busy = false ∧ t.enc.cnt = 0#2) ∧
    (exec (.decInEnd d) s = .next t → t.dec.busy = false ∧ t.dec.cnt = 0#2)

/-! ### The operations -/

/-- ENC.STD.NOPAD, ENC.URL.NOPAD, ENC.STD.PAD, ENC.URL.PAD compute `Encode` at their variant and padding flag,
changing nothing outside the encoder and ENC_CTRL; the holding registers are left open. That an operation sets the
control register and takes the message waiting on the stream is notes/assumptions/4.md. -/
def Obligations.EncoderOperationsYieldEncode : Prop :=
  EncOperationYields .encStdNopad 0b00#2 .std false ∧ EncOperationYields .encUrlNopad 0b01#2 .url false ∧
  EncOperationYields .encStdPad 0b10#2 .std true ∧ EncOperationYields .encUrlPad 0b11#2 .url true

/-- DEC.STD and DEC.URL compute `Decode` at their variant, changing nothing outside the decoder and DEC_CTRL; the holding
registers are left open (notes/assumptions/4.md as above). -/
def Obligations.DecoderOperationsYieldDecode : Prop :=
  DecOperationYields .decStd 0b0#1 .std ∧ DecOperationYields .decUrl 0b1#1 .url

/-- An operation completes on every stream, with or without an END, busy or idle, and takes the items up to and
including the first END. The model's choice, notes/assumptions/4.md. -/
def Obligations.OperationsAlwaysComplete : Prop :=
  ∀ s : State,
    (s.enc.cnt ≠ 3#2 → ∀ i ∈ [Instr.encStdNopad, .encUrlNopad, .encStdPad, .encUrlPad],
      ∃ t, exec i s = .next t ∧ t.enc.inp = afterEnd s.enc.inp ∧ t.dec = s.dec ∧ t.decCtrl = s.decCtrl ∧
        t.rx = s.rx) ∧
    (∀ i ∈ [Instr.decStd, .decUrl],
      ∃ t, exec i s = .next t ∧ t.dec.inp = afterEnd s.dec.inp ∧ t.enc = s.enc ∧ t.encCtrl = s.encCtrl ∧ t.rx = s.rx)

/-! ### The consumer -/

/-- The result of a message as the consumer reads it (R205, with the consumer's hand as state, which is
notes/assumptions/5.md): the bytes collected up to END(0), or the error and no
bytes at END(1); for the encoder the characters up to END(0). -/
def Obligations.ConsumerReadsResults : Prop :=
  ∀ (s : State) (c : Byte),
    exec (.encOutChar c) s = .next { s with rx := { s.rx with encChars := s.rx.encChars ++ [c] } } ∧
    exec .encOutEnd0 s = .next { s with rx := { s.rx with
      encChars := [], encResults := s.rx.encResults ++ [s.rx.encChars] } } ∧
    exec (.decOutByte c) s = .next { s with rx := { s.rx with decBytes := s.rx.decBytes ++ [c] } } ∧
    exec .decOutEnd0 s = .next { s with rx := { s.rx with
      decBytes := [], decResults := s.rx.decResults ++ [.ok s.rx.decBytes] } } ∧
    exec .decOutEnd1 s = .next { s with rx := { s.rx with
      decBytes := [], decResults := s.rx.decResults ++ [.malformedEncoding] } }

/-! ### Agreement of the two levels -/

/-- R148, which the spec derives from its step rules: an idle encoder that consumes a message appends exactly the
characters of `Encode` and END(0) and is idle again, whatever ENC_CTRL holds after the first step and whatever the
registers held before. -/
def Obligations.EncoderStepsComputeEncode : Prop :=
  ∀ (s : State) (x : List Byte) (d : Byte) (ns : List (BitVec 2)),
    s.enc.busy = false → s.enc.cnt = 0#2 → ns.length = x.length + 1 →
    ∃ t, encFeed ((encMessageItems x d).zip ns) s = .next t ∧
      t.enc.outWait = s.enc.outWait ++
        (encodeMsg (variantOfBit (s.encCtrl.getLsbD 0)) (s.encCtrl.getLsbD 1) x).map outData ++ [0x200#10] ∧
      t.enc.busy = false ∧ t.enc.cnt = 0#2 ∧ t.dec = s.dec

/-- R181, which the spec derives from its step rules: an idle decoder that consumes a message appends exactly what
`Decode` says and is idle again, whatever DEC_CTRL holds after the first step and whatever the registers held before. -/
def Obligations.DecoderStepsComputeDecode : Prop :=
  ∀ (s : State) (x : List Byte) (d : Byte) (ns : List (BitVec 1)),
    s.dec.busy = false → s.dec.cnt = 0#2 → ns.length = x.length + 1 →
    ∃ t new, decFeed ((decMessageItems x d).zip ns) s = .next t ∧
      t.dec.outWait = s.dec.outWait ++ new ∧ DecEmits (variantOfBit (s.decCtrl.getLsbD 0)) x new ∧
      t.dec.busy = false ∧ t.dec.cnt = 0#2 ∧ t.enc = s.enc

/-- After `k` DATA steps of a message exactly `4 * floor(k / 3)` characters are out (R149), and `cnt` is `k mod 3`
(R26). -/
def Obligations.CharactersAppearByGroup : Prop :=
  ∀ (s : State) (x : List Byte) (ns : List (BitVec 2)),
    s.enc.busy = false → s.enc.cnt = 0#2 → ns.length = x.length →
    ∃ (t : State) (chars : List Byte), encFeed ((x.map inData).zip ns) s = .next t ∧
      t.enc.cnt.toNat = x.length % 3 ∧ t.enc.outWait = s.enc.outWait ++ chars.map outData ∧
      chars.length = 4 * (x.length / 3)

/-- After `k` symbol steps of a message, foreign characters among them or not, exactly `3 * floor(k / 4)` bytes are out
(R186), and `cnt` is `k mod 4` (R33). -/
def Obligations.BytesAppearByQuad : Prop :=
  ∀ (s : State) (x : List Byte) (ns : List (BitVec 1)),
    s.dec.busy = false → s.dec.cnt = 0#2 → ns.length = x.length →
    ∃ (t : State) (bytes : List Byte), decFeed ((x.map inData).zip ns) s = .next t ∧
      t.dec.cnt.toNat = (decFilter (variantOfBit (s.decCtrl.getLsbD 0)) x).length % 4 ∧
      t.dec.outWait = s.dec.outWait ++ bytes.map outData ∧
      bytes.length = 3 * ((decFilter (variantOfBit (s.decCtrl.getLsbD 0)) x).length / 4)

/-- A run of the whole machine: the encoder consumes a message in as many steps as it has items, and the consumer,
taking every item it emitted, reads `Encode` of the message as the result (R148, R205, R242). The consumer as state is
notes/assumptions/5.md, the schedule and the script are notes/assumptions/6.md. -/
def Obligations.EncoderRunDeliversEncode : Prop :=
  ∀ (s : State) (x : List Byte) (d : Byte),
    s.enc.busy = false → s.enc.cnt = 0#2 → s.enc.outWait = [] → s.rx.encChars = [] →
    s.enc.inp = encMessageItems x d →
    let y := encodeMsg (variantOfBit (s.encCtrl.getLsbD 0)) (s.encCtrl.getLsbD 1) x
    s.sched = List.replicate (x.length + 1) .enc ++ List.replicate (y.length + 1) .host →
    s.script = List.replicate (y.length + 1) (.take .enc) →
    ∃ t, steps ((x.length + 1) + (y.length + 1)) s = .next t ∧
      t.rx.encResults = s.rx.encResults ++ [y] ∧ t.rx.encChars = [] ∧ t.enc.inp = [] ∧ t.enc.outWait = [] ∧
      t.enc.busy = false

/-- A run of the whole machine: the decoder consumes a message in as many steps as it has items, and the consumer,
taking every item it emitted (the bytes of R186 and END), reads `Decode` of the message as the result (R181, R205,
R242). The consumer as state is notes/assumptions/5.md, the schedule and the script are notes/assumptions/6.md. -/
def Obligations.DecoderRunDeliversDecode : Prop :=
  ∀ (s : State) (x : List Byte) (d : Byte),
    s.dec.busy = false → s.dec.cnt = 0#2 → s.dec.outWait = [] → s.rx.decBytes = [] →
    s.dec.inp = decMessageItems x d →
    let k := 3 * (decFilter (variantOfBit (s.decCtrl.getLsbD 0)) x).length / 4 + 1
    s.sched = List.replicate (x.length + 1) .dec ++ List.replicate k .host →
    s.script = List.replicate k (.take .dec) →
    ∃ t, steps ((x.length + 1) + k) s = .next t ∧
      t.rx.decResults = s.rx.decResults ++ [decodeMsg (variantOfBit (s.decCtrl.getLsbD 0)) x] ∧
      t.rx.decBytes = [] ∧ t.dec.inp = [] ∧ t.dec.outWait = [] ∧ t.dec.busy = false

/-! ### Laws of the message level -/

/-- Round trip (R184). -/
def Obligations.DecodeInvertsEncode : Prop :=
  ∀ (v : Variant) (p : Bool) (x : List Byte), decodeMsg v (encodeMsg v p x) = .ok x

/-- Padding invariance (R183, which the spec derives): the padded and the unpadded text of the same bytes decode alike,
under either variant. -/
def Obligations.PaddingInvariance : Prop :=
  ∀ (v w : Variant) (x : List Byte), decodeMsg w (encodeMsg v true x) = decodeMsg w (encodeMsg v false x)

/-- The length law of the encoder (R136, which the spec derives by counting), and the padded text as the unpadded text
followed by `=` characters. -/
def Obligations.EncodeLengthLaw : Prop :=
  ∀ (v : Variant) (x : List Byte),
    (encodeMsg v true x).length = (x.length + 2) / 3 * 4 ∧
    (encodeMsg v false x).length = (x.length * 4 + 2) / 3 ∧
    encodeMsg v true x = encodeMsg v false x ++
      List.replicate (if x.length % 3 = 1 then 2 else if x.length % 3 = 2 then 1 else 0) 0x3D#8 ∧
    0x3D#8 ∉ encodeMsg v false x

/-- The length law of the decoder (R185, which the spec derives) and its one failure (R163). -/
def Obligations.DecodeLengthLaw : Prop :=
  ∀ (v : Variant) (t : List Byte),
    ((decFilter v t).length % 4 = 1 → decodeMsg v t = .malformedEncoding) ∧
    ((decFilter v t).length % 4 ≠ 1 → ∃ z, decodeMsg v t = .ok z ∧ z.length = 3 * (decFilter v t).length / 4)

/-- A foreign character, `=` among them, is as if absent wherever it stands (R161, R97). -/
def Obligations.ForeignCharactersAbsent : Prop :=
  ∀ (v : Variant) (t1 t2 : List Byte) (c : Byte), isSymbol v c = false →
    decodeMsg v (t1 ++ c :: t2) = decodeMsg v (t1 ++ t2)

/-! ### The machine as a whole -/

/-- The invariant holds at reset (R43). -/
def Obligations.InvariantAtReset : Prop := Inv State.reset

/-- Every step from a state that meets the invariant gives a state that meets it (R43, R86, R87, R102). -/
def Obligations.StepKeepsInvariant : Prop :=
  ∀ s t : State, Inv s → step s = .next t → Inv t

/-- From a state that meets the invariant a step never faults, and it refuses only where the host names an OP word that
cannot be formed (R95) or that has more than three bits. The model's choice, notes/assumptions/18.md. -/
def Obligations.StepStopsOnlyAtUnformableOp : Prop :=
  ∀ s : State, Inv s →
    (∃ t, step s = .next t) ∨
    (∃ r w script, step s = .refused r ∧ s.script = .op w :: script ∧ 6 ≤ w)

/-- A step runs the decoded word: on a unit's turn the front item of its input stream, taken off; on the host's turn the
word of its next action, or the front item of an output stream it takes. That plain data says whose turn it is is
notes/assumptions/6.md. -/
def Obligations.StepRunsDecodedWord : Prop :=
  ∀ (s : State) (i : Instr) (sched : List Agent) (script : List HostAct),
    (∀ w rest, s.sched = .enc :: sched → s.enc.inp = w :: rest → decode .encIn w.toNat = .ok i →
      step s = exec i { s with sched := sched, enc := { s.enc with inp := rest } }) ∧
    (∀ w rest, s.sched = .dec :: sched → s.dec.inp = w :: rest → decode .decIn w.toNat = .ok i →
      step s = exec i { s with sched := sched, dec := { s.dec with inp := rest } }) ∧
    (∀ w, s.sched = .host :: sched → s.script = .op w :: script → decode .op w = .ok i →
      step s = exec i { s with sched := sched, script := script }) ∧
    (∀ n, s.sched = .host :: sched → s.script = .write .cr0 n :: script → decode .cr0 n = .ok i →
      step s = exec i { s with sched := sched, script := script }) ∧
    (∀ n, s.sched = .host :: sched → s.script = .write .cr1 n :: script → decode .cr1 n = .ok i →
      step s = exec i { s with sched := sched, script := script }) ∧
    (∀ w rest, s.sched = .host :: sched → s.script = .take .enc :: script → s.enc.outWait = w :: rest →
      decode .encOut w.toNat = .ok i →
      step s = exec i { s with
        sched := sched, script := script, enc := { s.enc with outTaken := s.enc.outTaken ++ [w], outWait := rest } }) ∧
    (∀ w rest, s.sched = .host :: sched → s.script = .take .dec :: script → s.dec.outWait = w :: rest →
      decode .decOut w.toNat = .ok i →
      step s = exec i { s with
        sched := sched, script := script, dec := { s.dec with outTaken := s.dec.outTaken ++ [w], outWait := rest } })

/-- With an empty schedule a script line other than RUN is the host's turn, whatever waits in the input streams; at RUN
and after the last line the units step, the encoder first, while they have input, and then RUN is used up. The model's
choice, notes/assumptions/6.md, after R100. -/
def Obligations.EmptyScheduleFollowsTheScript : Prop :=
  ∀ s : State, s.sched = [] →
    (∀ a rest, s.script = a :: rest → a ≠ .run → step s = step { s with sched := [.host] }) ∧
    ((s.script = [] ∨ ∃ rest, s.script = .run :: rest) →
      (s.enc.inp ≠ [] → step s = step { s with sched := [.enc] }) ∧
      (s.enc.inp = [] → s.dec.inp ≠ [] → step s = step { s with sched := [.dec] }) ∧
      (s.enc.inp = [] → s.dec.inp = [] → step s = .next { s with script := s.script.tail }))

/-- A unit with an empty input stream has no step and waits, changing nothing (R56). That a turn it has nothing to do in
is used up is the model's choice, notes/assumptions/6.md. -/
def Obligations.EmptyInputWaits : Prop :=
  ∀ (s : State) (sched : List Agent),
    (s.sched = .enc :: sched → s.enc.inp = [] → step s = .next { s with sched := sched }) ∧
    (s.sched = .dec :: sched → s.dec.inp = [] → step s = .next { s with sched := sched })

/-- The two units' steps may be made in either order with the same result (R68). -/
def Obligations.UnitStepsCommute : Prop :=
  ∀ (s : State) (sched : List Agent),
    steps 2 { s with sched := .enc :: .dec :: sched } = steps 2 { s with sched := .dec :: .enc :: sched }

/-- A unit's step neither reads nor writes anything of the other unit or of the host's side (R20, R68): it gives the
same unit in every surrounding and leaves the surrounding alone. -/
def Obligations.UnitsShareNoState : Prop :=
  ∀ (s u : State) (b : Byte),
    (u.enc = s.enc → u.encCtrl = s.encCtrl → ∀ i ∈ [Instr.encInData b, .encInEnd b], ∀ t, exec i s = .next t →
      t = { s with enc := t.enc } ∧ exec i u = .next { u with enc := t.enc }) ∧
    (u.dec = s.dec → u.decCtrl = s.decCtrl → ∀ i ∈ [Instr.decInChar b, .decInEnd b], ∃ t, exec i s = .next t ∧
      t = { s with dec := t.dec } ∧ exec i u = .next { u with dec := t.dec })

/-- The host can put items, in order, at the end of an input stream, and that changes nothing else (R54). -/
def Obligations.HostPutAppends : Prop :=
  ∀ (s : State) (w : InItem) (script : List HostAct) (sched : List Agent), s.sched = .host :: sched →
    (s.script = .put .enc w :: script →
      step s = .next { s with sched := sched, script := script, enc := { s.enc with inp := s.enc.inp ++ [w] } }) ∧
    (s.script = .put .dec w :: script →
      step s = .next { s with sched := sched, script := script, dec := { s.dec with inp := s.dec.inp ++ [w] } })

/-- Without a reset or an operation the host cannot change a unit's registers, nor what its output stream has carried,
and it changes a control register only by writing that register (R44). -/
def Obligations.HostCannotTouchRegisters : Prop :=
  ∀ (s t : State) (a : HostAct) (script : List HostAct) (sched : List Agent),
    s.sched = .host :: sched → s.script = a :: script →
    a ≠ .reset → (∀ u, a ≠ .resetUnit u) → (∀ w, a ≠ .op w) → step s = .next t →
    { t.enc with inp := s.enc.inp, outTaken := s.enc.outTaken, outWait := s.enc.outWait } = s.enc ∧
    { t.dec with inp := s.dec.inp, outTaken := s.dec.outTaken, outWait := s.dec.outWait } = s.dec ∧
    t.enc.out = s.enc.out ∧ t.dec.out = s.dec.out ∧
    ((∀ n, a ≠ .write .cr0 n) → t.encCtrl = s.encCtrl) ∧ ((∀ n, a ≠ .write .cr1 n) → t.decCtrl = s.decCtrl) ∧
    ((∀ w, a ≠ .put .enc w) → t.enc.inp = s.enc.inp) ∧ ((∀ w, a ≠ .put .dec w) → t.dec.inp = s.dec.inp)

/-- Progress (R242): given `n` turns and at least `n` items waiting, a unit consumes exactly `n` items in `n` steps. -/
def Obligations.UnitConsumesOneItemPerStep : Prop :=
  ∀ (s : State) (n : Nat) (sched : List Agent),
    (s.enc.cnt ≠ 3#2 → n ≤ s.enc.inp.length → s.sched = List.replicate n .enc ++ sched →
      ∃ t, steps n s = .next t ∧ t.enc.inp = s.enc.inp.drop n ∧ t.sched = sched) ∧
    (n ≤ s.dec.inp.length → s.sched = List.replicate n .dec ++ sched →
      ∃ t, steps n s = .next t ∧ t.dec.inp = s.dec.inp.drop n ∧ t.sched = sched)
end

