-- ==== Sys2Proof/Laws/Bits.lean ====
section
/-! SUPPORT. The bit layouts once: the fields as slices of the 24-bit group word (R88), the bytes as slices of the
24-bit quad word (R90), and the fields of the items (R84 to R87). -/

namespace Sys2Proof.Machine

/-- A bit of the encoder's group word (R88). -/
theorem group24_bit (x y z : Byte) (i : Nat) :
    (x ++ y ++ z : BitVec 24).getLsbD i =
      if i < 8 then z.getLsbD i else if i < 16 then y.getLsbD (i - 8) else x.getLsbD (i - 16) := by
  refine (BitVec.getLsbD_append (x := (HAppend.hAppend x y : BitVec (8 + 8))) (y := z) (i := i)).trans ?_
  rw [BitVec.getLsbD_append (x := x) (y := y) (i := i - 8)]
  by_cases h1 : i < 8
  · simp [h1]
  · by_cases h2 : i < 16
    · simp [h1, h2, show i - 8 < 8 by omega]
    · simp [h1, h2, show ¬ i - 8 < 8 by omega, show i - 8 - 8 = i - 16 by omega]

/-- A bit of the decoder's quad word (R90). -/
theorem quad24_bit (a b c d : Sym) (i : Nat) :
    (a ++ b ++ c ++ d : BitVec 24).getLsbD i =
      if i < 6 then d.getLsbD i else if i < 12 then c.getLsbD (i - 6)
      else if i < 18 then b.getLsbD (i - 12) else a.getLsbD (i - 18) := by
  refine (BitVec.getLsbD_append
    (x := (HAppend.hAppend (HAppend.hAppend a b : BitVec (6 + 6)) c : BitVec (6 + 6 + 6))) (y := d) (i := i)).trans ?_
  rw [BitVec.getLsbD_append (x := (HAppend.hAppend a b : BitVec (6 + 6))) (y := c) (i := i - 6),
    BitVec.getLsbD_append (x := a) (y := b) (i := i - 6 - 6)]
  by_cases h1 : i < 6
  · simp [h1]
  · by_cases h2 : i < 12
    · simp [h1, h2, show i - 6 < 6 by omega]
    · by_cases h3 : i < 18
      · rw [if_neg (by omega), if_neg (by omega), if_pos (by omega)]
        simp [h1, h2, h3, show i - 6 - 6 = i - 12 by omega]
      · simp [h1, h2, h3, show ¬ i - 6 < 6 by omega, show ¬ i - 6 - 6 < 6 by omega, show i - 6 - 6 - 6 = i - 18 by omega]

theorem field1_slice (x y z : Byte) : field1 x = (x ++ y ++ z : BitVec 24).extractLsb' 18 6 := by
  refine BitVec.eq_of_getLsbD_eq fun i hi => ?_
  rw [BitVec.getLsbD_extractLsb', group24_bit]
  unfold field1
  interval_cases i <;> simp

theorem field2_slice (x y z : Byte) : field2 x y = (x ++ y ++ z : BitVec 24).extractLsb' 12 6 := by
  refine BitVec.eq_of_getLsbD_eq fun i hi => ?_
  rw [BitVec.getLsbD_extractLsb', group24_bit]
  unfold field2
  interval_cases i <;> simp

theorem field3_slice (x y z : Byte) : field3 y z = (x ++ y ++ z : BitVec 24).extractLsb' 6 6 := by
  refine BitVec.eq_of_getLsbD_eq fun i hi => ?_
  rw [BitVec.getLsbD_extractLsb', group24_bit]
  unfold field3
  interval_cases i <;> simp

theorem field4_slice (x y z : Byte) : field4 z = (x ++ y ++ z : BitVec 24).extractLsb' 0 6 := by
  refine BitVec.eq_of_getLsbD_eq fun i hi => ?_
  rw [BitVec.getLsbD_extractLsb', group24_bit]
  unfold field4
  interval_cases i <;> simp

theorem pack1_slice (a b c d : Sym) : pack1 a b = (a ++ b ++ c ++ d : BitVec 24).extractLsb' 16 8 := by
  refine BitVec.eq_of_getLsbD_eq fun i hi => ?_
  rw [BitVec.getLsbD_extractLsb', quad24_bit]
  unfold pack1
  interval_cases i <;> simp

theorem pack2_slice (a b c d : Sym) : pack2 b c = (a ++ b ++ c ++ d : BitVec 24).extractLsb' 8 8 := by
  refine BitVec.eq_of_getLsbD_eq fun i hi => ?_
  rw [BitVec.getLsbD_extractLsb', quad24_bit]
  unfold pack2
  interval_cases i <;> simp

theorem pack3_slice (a b c d : Sym) : pack3 c d = (a ++ b ++ c ++ d : BitVec 24).extractLsb' 0 8 := by
  refine BitVec.eq_of_getLsbD_eq fun i hi => ?_
  rw [BitVec.getLsbD_extractLsb', quad24_bit]
  unfold pack3
  interval_cases i <;> simp

/-- Byte 1 as `a[5:0], b[5:4]` (R91). -/
theorem pack1_cat (a b : Sym) : pack1 a b = a ++ b.extractLsb' 4 2 := by
  refine BitVec.eq_of_getLsbD_eq fun i hi => ?_
  refine Eq.trans ?_ (BitVec.getLsbD_append (x := a) (y := b.extractLsb' 4 2) (i := i)).symm
  unfold pack1
  interval_cases i <;> simp

/-- Byte 2 as `b[3:0], c[5:2]` (R91). -/
theorem pack2_cat (b c : Sym) : pack2 b c = b.extractLsb' 0 4 ++ c.extractLsb' 2 4 := by
  refine BitVec.eq_of_getLsbD_eq fun i hi => ?_
  refine Eq.trans ?_ (BitVec.getLsbD_append (x := b.extractLsb' 0 4) (y := c.extractLsb' 2 4) (i := i)).symm
  unfold pack2
  interval_cases i <;> simp

/-- Cutting and joining is the identity on each byte (R184). -/
theorem pack1_fields (x y : Byte) : pack1 (field1 x) (field2 x y) = x := by
  refine BitVec.eq_of_getLsbD_eq fun i hi => ?_
  unfold pack1 field1 field2
  interval_cases i <;> simp

theorem pack2_fields (x y z : Byte) : pack2 (field2 x y) (field3 y z) = y := by
  refine BitVec.eq_of_getLsbD_eq fun i hi => ?_
  unfold pack2 field2 field3
  interval_cases i <;> simp

theorem pack3_fields (y z : Byte) : pack3 (field3 y z) (field4 z) = z := by
  refine BitVec.eq_of_getLsbD_eq fun i hi => ?_
  unfold pack3 field3 field4
  interval_cases i <;> simp

/-- An output CHAR or BYTE item, both status bits 0 (R86, R87). -/
theorem outData_eq (b : Byte) : outData b = 0#2 ++ b := by
  refine BitVec.eq_of_toNat_eq ?_
  simp [outData]

@[simp] theorem outEnd_none : outEnd Config.errNone = 0x200#10 := by decide
@[simp] theorem outEnd_malformed : outEnd Config.errMalformed = 0x300#10 := by decide

/-- The value of an input data item is its byte (R84, R85). -/
@[simp] theorem inData_toNat (b : Byte) : (inData b).toNat = b.toNat :=
  (BitVec.toNat_append 0#1 b).trans (by simp)

/-- The value of an input END item is 0x100 and its ignored field (R84, R85). -/
@[simp] theorem inEnd_toNat (b : Byte) : (inEnd b).toNat = 0x100 + b.toNat := by
  rw [show (inEnd b).toNat = _ from BitVec.toNat_append 1#1 b, Nat.shiftLeft_eq, Nat.mul_comm,
    ← Nat.two_pow_add_eq_or_of_lt b.isLt]
  simp

@[simp] theorem outData_toNat (b : Byte) : (outData b).toNat = b.toNat :=
  (BitVec.toNat_append (0#1 ++ 0#1 : BitVec (1 + 1)) b).trans (by simp)

@[simp] theorem inItemEnd_inData (b : Byte) : inItemEnd (inData b) = false := by
  unfold inItemEnd
  refine (BitVec.getLsbD_append (x := 0#1) (y := b) (i := 8)).trans ?_
  simp

@[simp] theorem inItemEnd_inEnd (b : Byte) : inItemEnd (inEnd b) = true := by
  unfold inItemEnd
  refine (BitVec.getLsbD_append (x := 1#1) (y := b) (i := 8)).trans ?_
  simp

@[simp] theorem inItemData_inData (b : Byte) : inItemData (inData b) = b := by
  refine BitVec.eq_of_getLsbD_eq fun i hi => ?_
  refine (BitVec.getLsbD_extractLsb' ..).trans ?_
  rw [show (inData b).getLsbD (0 + i) = _ from BitVec.getLsbD_append (x := 0#1) (y := b) (i := 0 + i)]
  simp [hi]

@[simp] theorem inItemData_inEnd (b : Byte) : inItemData (inEnd b) = b := by
  refine BitVec.eq_of_getLsbD_eq fun i hi => ?_
  refine (BitVec.getLsbD_extractLsb' ..).trans ?_
  rw [show (inEnd b).getLsbD (0 + i) = _ from BitVec.getLsbD_append (x := 1#1) (y := b) (i := 0 + i)]
  simp [hi]

/-- Every input item is a data item or an END item (R84, R85). -/
theorem inItem_cases (w : InItem) : (∃ b, w = inData b) ∨ (∃ d, w = inEnd d) := by
  have key : w = w.extractLsb' 8 1 ++ w.extractLsb' 0 8 := by
    refine BitVec.eq_of_getLsbD_eq fun i hi => ?_
    refine Eq.trans ?_ (BitVec.getLsbD_append (x := w.extractLsb' 8 1) (y := w.extractLsb' 0 8) (i := i)).symm
    interval_cases i <;> simp
  obtain h | h := BitVec.eq_zero_or_eq_one (w.extractLsb' 8 1)
  · exact .inl ⟨w.extractLsb' 0 8, by rw [h] at key; exact key⟩
  · exact .inr ⟨w.extractLsb' 0 8, by rw [h] at key; exact key⟩

end Sys2Proof.Machine
end

