-- ==== Sys2Proof/Laws/PerInstr.lean ====
section
/-! SUPPORT. What holds of every constructor of `Instr`, one lemma per constructor: the encoded word has no more bits
than its port (R80 to R87), so the encoder writes nothing the decoder would cut off. -/

namespace Sys2Proof.Laws.EncodeFits

/-- The encoded word of `i` fits the width of its port. -/
def Statement (i : Instr) : Prop := (encode i).2 < 2 ^ (encode i).1.width

theorem encStdNopad : Statement .encStdNopad := by unfold Statement; decide
theorem encUrlNopad : Statement .encUrlNopad := by unfold Statement; decide
theorem encStdPad : Statement .encStdPad := by unfold Statement; decide
theorem encUrlPad : Statement .encUrlPad := by unfold Statement; decide
theorem decStd : Statement .decStd := by unfold Statement; decide
theorem decUrl : Statement .decUrl := by unfold Statement; decide
theorem encInData (b : Byte) : Statement (.encInData b) := (inData b).isLt
theorem encInEnd (d : Byte) : Statement (.encInEnd d) := (inEnd d).isLt
theorem decInChar (c : Byte) : Statement (.decInChar c) := (inData c).isLt
theorem decInEnd (d : Byte) : Statement (.decInEnd d) := (inEnd d).isLt
theorem encOutChar (c : Byte) : Statement (.encOutChar c) := (outData c).isLt
theorem encOutEnd0 : Statement .encOutEnd0 := by unfold Statement; decide
theorem decOutByte (b : Byte) : Statement (.decOutByte b) := (outData b).isLt
theorem decOutEnd0 : Statement .decOutEnd0 := by unfold Statement; decide
theorem decOutEnd1 : Statement .decOutEnd1 := by unfold Statement; decide
theorem encCtrl (n : BitVec 2) : Statement (.encCtrl n) := n.isLt
theorem decCtrl (n : BitVec 1) : Statement (.decCtrl n) := n.isLt

end Sys2Proof.Laws.EncodeFits
end

