-- ==== Sys2Proof/Laws/State.lean ====
section
/-! SUPPORT. One lemma per field per update of the state, and of the units' shared updates. -/

namespace Sys2Proof.Machine

@[simp] theorem State.setEncCtrl_encCtrl (s : State) (v : BitVec 2) : (s.setEncCtrl v).encCtrl = v := rfl
@[simp] theorem State.setEncCtrl_decCtrl (s : State) (v : BitVec 2) : (s.setEncCtrl v).decCtrl = s.decCtrl := rfl
@[simp] theorem State.setEncCtrl_enc (s : State) (v : BitVec 2) : (s.setEncCtrl v).enc = s.enc := rfl
@[simp] theorem State.setEncCtrl_dec (s : State) (v : BitVec 2) : (s.setEncCtrl v).dec = s.dec := rfl
@[simp] theorem State.setEncCtrl_script (s : State) (v : BitVec 2) : (s.setEncCtrl v).script = s.script := rfl
@[simp] theorem State.setEncCtrl_sched (s : State) (v : BitVec 2) : (s.setEncCtrl v).sched = s.sched := rfl
@[simp] theorem State.setEncCtrl_rx (s : State) (v : BitVec 2) : (s.setEncCtrl v).rx = s.rx := rfl
@[simp] theorem State.setEncCtrl_reads (s : State) (v : BitVec 2) : (s.setEncCtrl v).reads = s.reads := rfl

@[simp] theorem State.setDecCtrl_encCtrl (s : State) (v : BitVec 1) : (s.setDecCtrl v).encCtrl = s.encCtrl := rfl
@[simp] theorem State.setDecCtrl_decCtrl (s : State) (v : BitVec 1) : (s.setDecCtrl v).decCtrl = v := rfl
@[simp] theorem State.setDecCtrl_enc (s : State) (v : BitVec 1) : (s.setDecCtrl v).enc = s.enc := rfl
@[simp] theorem State.setDecCtrl_dec (s : State) (v : BitVec 1) : (s.setDecCtrl v).dec = s.dec := rfl
@[simp] theorem State.setDecCtrl_script (s : State) (v : BitVec 1) : (s.setDecCtrl v).script = s.script := rfl
@[simp] theorem State.setDecCtrl_sched (s : State) (v : BitVec 1) : (s.setDecCtrl v).sched = s.sched := rfl
@[simp] theorem State.setDecCtrl_rx (s : State) (v : BitVec 1) : (s.setDecCtrl v).rx = s.rx := rfl
@[simp] theorem State.setDecCtrl_reads (s : State) (v : BitVec 1) : (s.setDecCtrl v).reads = s.reads := rfl

@[simp] theorem State.setEnc_encCtrl (s : State) (v : EncUnit) : (s.setEnc v).encCtrl = s.encCtrl := rfl
@[simp] theorem State.setEnc_decCtrl (s : State) (v : EncUnit) : (s.setEnc v).decCtrl = s.decCtrl := rfl
@[simp] theorem State.setEnc_enc (s : State) (v : EncUnit) : (s.setEnc v).enc = v := rfl
@[simp] theorem State.setEnc_dec (s : State) (v : EncUnit) : (s.setEnc v).dec = s.dec := rfl
@[simp] theorem State.setEnc_script (s : State) (v : EncUnit) : (s.setEnc v).script = s.script := rfl
@[simp] theorem State.setEnc_sched (s : State) (v : EncUnit) : (s.setEnc v).sched = s.sched := rfl
@[simp] theorem State.setEnc_rx (s : State) (v : EncUnit) : (s.setEnc v).rx = s.rx := rfl
@[simp] theorem State.setEnc_reads (s : State) (v : EncUnit) : (s.setEnc v).reads = s.reads := rfl

@[simp] theorem State.setDec_encCtrl (s : State) (v : DecUnit) : (s.setDec v).encCtrl = s.encCtrl := rfl
@[simp] theorem State.setDec_decCtrl (s : State) (v : DecUnit) : (s.setDec v).decCtrl = s.decCtrl := rfl
@[simp] theorem State.setDec_enc (s : State) (v : DecUnit) : (s.setDec v).enc = s.enc := rfl
@[simp] theorem State.setDec_dec (s : State) (v : DecUnit) : (s.setDec v).dec = v := rfl
@[simp] theorem State.setDec_script (s : State) (v : DecUnit) : (s.setDec v).script = s.script := rfl
@[simp] theorem State.setDec_sched (s : State) (v : DecUnit) : (s.setDec v).sched = s.sched := rfl
@[simp] theorem State.setDec_rx (s : State) (v : DecUnit) : (s.setDec v).rx = s.rx := rfl
@[simp] theorem State.setDec_reads (s : State) (v : DecUnit) : (s.setDec v).reads = s.reads := rfl

@[simp] theorem State.setScript_encCtrl (s : State) (v : List HostAct) : (s.setScript v).encCtrl = s.encCtrl := rfl
@[simp] theorem State.setScript_decCtrl (s : State) (v : List HostAct) : (s.setScript v).decCtrl = s.decCtrl := rfl
@[simp] theorem State.setScript_enc (s : State) (v : List HostAct) : (s.setScript v).enc = s.enc := rfl
@[simp] theorem State.setScript_dec (s : State) (v : List HostAct) : (s.setScript v).dec = s.dec := rfl
@[simp] theorem State.setScript_script (s : State) (v : List HostAct) : (s.setScript v).script = v := rfl
@[simp] theorem State.setScript_sched (s : State) (v : List HostAct) : (s.setScript v).sched = s.sched := rfl
@[simp] theorem State.setScript_rx (s : State) (v : List HostAct) : (s.setScript v).rx = s.rx := rfl
@[simp] theorem State.setScript_reads (s : State) (v : List HostAct) : (s.setScript v).reads = s.reads := rfl

@[simp] theorem State.setSched_encCtrl (s : State) (v : List Agent) : (s.setSched v).encCtrl = s.encCtrl := rfl
@[simp] theorem State.setSched_decCtrl (s : State) (v : List Agent) : (s.setSched v).decCtrl = s.decCtrl := rfl
@[simp] theorem State.setSched_enc (s : State) (v : List Agent) : (s.setSched v).enc = s.enc := rfl
@[simp] theorem State.setSched_dec (s : State) (v : List Agent) : (s.setSched v).dec = s.dec := rfl
@[simp] theorem State.setSched_script (s : State) (v : List Agent) : (s.setSched v).script = s.script := rfl
@[simp] theorem State.setSched_sched (s : State) (v : List Agent) : (s.setSched v).sched = v := rfl
@[simp] theorem State.setSched_rx (s : State) (v : List Agent) : (s.setSched v).rx = s.rx := rfl
@[simp] theorem State.setSched_reads (s : State) (v : List Agent) : (s.setSched v).reads = s.reads := rfl

@[simp] theorem State.setRx_encCtrl (s : State) (v : Consumer) : (s.setRx v).encCtrl = s.encCtrl := rfl
@[simp] theorem State.setRx_decCtrl (s : State) (v : Consumer) : (s.setRx v).decCtrl = s.decCtrl := rfl
@[simp] theorem State.setRx_enc (s : State) (v : Consumer) : (s.setRx v).enc = s.enc := rfl
@[simp] theorem State.setRx_dec (s : State) (v : Consumer) : (s.setRx v).dec = s.dec := rfl
@[simp] theorem State.setRx_script (s : State) (v : Consumer) : (s.setRx v).script = s.script := rfl
@[simp] theorem State.setRx_sched (s : State) (v : Consumer) : (s.setRx v).sched = s.sched := rfl
@[simp] theorem State.setRx_rx (s : State) (v : Consumer) : (s.setRx v).rx = v := rfl
@[simp] theorem State.setRx_reads (s : State) (v : Consumer) : (s.setRx v).reads = s.reads := rfl

@[simp] theorem State.setReads_encCtrl (s : State) (v : List (CrNum × Nat)) : (s.setReads v).encCtrl = s.encCtrl := rfl
@[simp] theorem State.setReads_decCtrl (s : State) (v : List (CrNum × Nat)) : (s.setReads v).decCtrl = s.decCtrl := rfl
@[simp] theorem State.setReads_enc (s : State) (v : List (CrNum × Nat)) : (s.setReads v).enc = s.enc := rfl
@[simp] theorem State.setReads_dec (s : State) (v : List (CrNum × Nat)) : (s.setReads v).dec = s.dec := rfl
@[simp] theorem State.setReads_script (s : State) (v : List (CrNum × Nat)) : (s.setReads v).script = s.script := rfl
@[simp] theorem State.setReads_sched (s : State) (v : List (CrNum × Nat)) : (s.setReads v).sched = s.sched := rfl
@[simp] theorem State.setReads_rx (s : State) (v : List (CrNum × Nat)) : (s.setReads v).rx = s.rx := rfl
@[simp] theorem State.setReads_reads (s : State) (v : List (CrNum × Nat)) : (s.setReads v).reads = v := rfl

@[simp] theorem EncUnit.emit_cfgV (u : EncUnit) (ws : List OutItem) : (u.emit ws).cfgV = u.cfgV := rfl
@[simp] theorem EncUnit.emit_cfgP (u : EncUnit) (ws : List OutItem) : (u.emit ws).cfgP = u.cfgP := rfl
@[simp] theorem EncUnit.emit_b1 (u : EncUnit) (ws : List OutItem) : (u.emit ws).b1 = u.b1 := rfl
@[simp] theorem EncUnit.emit_b2 (u : EncUnit) (ws : List OutItem) : (u.emit ws).b2 = u.b2 := rfl
@[simp] theorem EncUnit.emit_cnt (u : EncUnit) (ws : List OutItem) : (u.emit ws).cnt = u.cnt := rfl
@[simp] theorem EncUnit.emit_busy (u : EncUnit) (ws : List OutItem) : (u.emit ws).busy = u.busy := rfl
@[simp] theorem EncUnit.emit_inp (u : EncUnit) (ws : List OutItem) : (u.emit ws).inp = u.inp := rfl
@[simp] theorem EncUnit.emit_outTaken (u : EncUnit) (ws : List OutItem) : (u.emit ws).outTaken = u.outTaken := rfl
@[simp] theorem EncUnit.emit_outWait (u : EncUnit) (ws : List OutItem) : (u.emit ws).outWait = u.outWait ++ ws := rfl
@[simp] theorem EncUnit.idle_cfgV (u : EncUnit) : u.idle.cfgV = u.cfgV := rfl
@[simp] theorem EncUnit.idle_cfgP (u : EncUnit) : u.idle.cfgP = u.cfgP := rfl
@[simp] theorem EncUnit.idle_b1 (u : EncUnit) : u.idle.b1 = u.b1 := rfl
@[simp] theorem EncUnit.idle_b2 (u : EncUnit) : u.idle.b2 = u.b2 := rfl
@[simp] theorem EncUnit.idle_cnt (u : EncUnit) : u.idle.cnt = 0#2 := rfl
@[simp] theorem EncUnit.idle_busy (u : EncUnit) : u.idle.busy = false := rfl
@[simp] theorem EncUnit.idle_inp (u : EncUnit) : u.idle.inp = u.inp := rfl
@[simp] theorem EncUnit.idle_outTaken (u : EncUnit) : u.idle.outTaken = u.outTaken := rfl
@[simp] theorem EncUnit.idle_outWait (u : EncUnit) : u.idle.outWait = u.outWait := rfl

@[simp] theorem DecUnit.emit_cfgV (u : DecUnit) (ws : List OutItem) : (u.emit ws).cfgV = u.cfgV := rfl
@[simp] theorem DecUnit.emit_s1 (u : DecUnit) (ws : List OutItem) : (u.emit ws).s1 = u.s1 := rfl
@[simp] theorem DecUnit.emit_s2 (u : DecUnit) (ws : List OutItem) : (u.emit ws).s2 = u.s2 := rfl
@[simp] theorem DecUnit.emit_s3 (u : DecUnit) (ws : List OutItem) : (u.emit ws).s3 = u.s3 := rfl
@[simp] theorem DecUnit.emit_cnt (u : DecUnit) (ws : List OutItem) : (u.emit ws).cnt = u.cnt := rfl
@[simp] theorem DecUnit.emit_busy (u : DecUnit) (ws : List OutItem) : (u.emit ws).busy = u.busy := rfl
@[simp] theorem DecUnit.emit_inp (u : DecUnit) (ws : List OutItem) : (u.emit ws).inp = u.inp := rfl
@[simp] theorem DecUnit.emit_outTaken (u : DecUnit) (ws : List OutItem) : (u.emit ws).outTaken = u.outTaken := rfl
@[simp] theorem DecUnit.emit_outWait (u : DecUnit) (ws : List OutItem) : (u.emit ws).outWait = u.outWait ++ ws := rfl
@[simp] theorem DecUnit.idle_cfgV (u : DecUnit) : u.idle.cfgV = u.cfgV := rfl
@[simp] theorem DecUnit.idle_s1 (u : DecUnit) : u.idle.s1 = u.s1 := rfl
@[simp] theorem DecUnit.idle_s2 (u : DecUnit) : u.idle.s2 = u.s2 := rfl
@[simp] theorem DecUnit.idle_s3 (u : DecUnit) : u.idle.s3 = u.s3 := rfl
@[simp] theorem DecUnit.idle_cnt (u : DecUnit) : u.idle.cnt = 0#2 := rfl
@[simp] theorem DecUnit.idle_busy (u : DecUnit) : u.idle.busy = false := rfl
@[simp] theorem DecUnit.idle_inp (u : DecUnit) : u.idle.inp = u.inp := rfl
@[simp] theorem DecUnit.idle_outTaken (u : DecUnit) : u.idle.outTaken = u.outTaken := rfl
@[simp] theorem DecUnit.idle_outWait (u : DecUnit) : u.idle.outWait = u.outWait := rfl

end Sys2Proof.Machine
end

