-- ==== Sys2Proof/Laws/Units.lean ====
section
/-! SUPPORT. What a unit's step can do, once: the message start, the frame of each step, completion, and the operations
item by item. -/

namespace Sys2Proof.Machine

/-- The four values of a group counter. -/
theorem cnt_cases (c : BitVec 2) : c = 0#2 ∨ c = 1#2 ∨ c = 2#2 ∨ c = 3#2 := by
  revert c; decide

/-- The encoder after its message start, busy or idle before (R141). -/
theorem encLatch_eq (s : State) :
    encLatch s = { s.enc with cfgV := encVariant s, cfgP := encPad s, busy := true } := by
  unfold encLatch encVariant encPad encCtrlVariant encCtrlPad
  cases h : s.enc with
  | mk _ _ _ _ _ busy => cases busy <;> simp

/-- The decoder after its message start, busy or idle before (R171). -/
theorem decLatch_eq (s : State) : decLatch s = { s.dec with cfgV := decVariant s, busy := true } := by
  unfold decLatch decVariant decCtrlVariant
  cases h : s.dec with
  | mk _ _ _ _ _ busy => cases busy <;> simp

/-- Every entry of ALPHA is a character the encoder may emit (R86). -/
theorem encCharOk_alpha (v : Variant) (i : Sym) : encCharOk (alpha v i) = true := by
  revert v i
  intro v
  cases v <;> decide

/-- A CHAR item of an alphabet entry is one the encoder can produce (R86). -/
theorem encOutOk_alpha (v : Variant) (i : Sym) : encOutOk (outData (alpha v i)) :=
  .inr ⟨_, outData_eq _, encCharOk_alpha v i⟩

/-- A padding item is one the encoder can produce (R86). -/
theorem encOutOk_pad : encOutOk (outData Config.padChar) := .inr ⟨_, outData_eq _, by decide⟩

theorem encOutOk_group3 (v : Variant) (x y z : Byte) : ∀ w ∈ group3Items v x y z, encOutOk w := by
  simp [group3Items, encOutOk_alpha]

theorem encOutOk_group2 (v : Variant) (p : Bool) (x y : Byte) : ∀ w ∈ group2Items v p x y, encOutOk w := by
  cases p <;> simp [group2Items, encOutOk_alpha, encOutOk_pad]

theorem encOutOk_group1 (v : Variant) (p : Bool) (x : Byte) : ∀ w ∈ group1Items v p x, encOutOk w := by
  cases p <;> simp [group1Items, encOutOk_alpha, encOutOk_pad]

/-- A BYTE item is one the decoder can produce (R87). -/
theorem decOutOk_data (b : Byte) : decOutOk (outData b) := .inr (.inr ⟨b, outData_eq b⟩)

/-- The encoder's step on an item with `cnt` legal (R43) gives a next state and touches only the encoder: it takes
nothing further from its input, only appends to its output, and what it appends it can produce. -/
theorem encItem_next (w : InItem) (s : State) (h : s.enc.cnt ≠ 3#2) :
    ∃ e new, encItem w s = .next (s.setEnc e) ∧ e.inp = s.enc.inp ∧ e.outTaken = s.enc.outTaken ∧
      e.cnt ≠ 3#2 ∧ (e.busy = false → e.cnt = 0#2) ∧ e.outWait = s.enc.outWait ++ new ∧ ∀ w ∈ new, encOutOk w := by
  have ok : encOutOk (0x200#10) := .inl rfl
  obtain h0 | h0 | h0 | h0 := cnt_cases s.enc.cnt
  · cases hw : inItemEnd w
    · refine ⟨_, [], (by simp [encItem, hw, execEncInData, encLatch_eq, h0]; rfl), ?_⟩
      simp
    · refine ⟨_, [0x200#10], (by simp [encItem, hw, execEncInEnd, encLatch_eq, h0]; rfl), ?_⟩
      simp [ok]
  · cases hw : inItemEnd w
    · refine ⟨_, [], (by simp [encItem, hw, execEncInData, encLatch_eq, h0]; rfl), ?_⟩
      simp
    · refine ⟨_, group1Items (encVariant s) (encPad s) s.enc.b1 ++ [0x200#10],
        (by simp [encItem, hw, execEncInEnd, encLatch_eq, h0]; rfl), ?_⟩
      simpa [or_imp, forall_and, ok] using encOutOk_group1 _ _ _
  · cases hw : inItemEnd w
    · refine ⟨_, group3Items (encVariant s) s.enc.b1 s.enc.b2 (inItemData w),
        (by simp [encItem, hw, execEncInData, encLatch_eq, h0]; rfl), ?_⟩
      simpa using encOutOk_group3 _ _ _ _
    · refine ⟨_, group2Items (encVariant s) (encPad s) s.enc.b1 s.enc.b2 ++ [0x200#10],
        (by simp [encItem, hw, execEncInEnd, encLatch_eq, h0]; rfl), ?_⟩
      simpa [or_imp, forall_and, ok] using encOutOk_group2 _ _ _ _
  · exact absurd h0 h

/-- The decoder's step on an item always gives a next state and touches only the decoder: it takes nothing further from
its input, only appends to its output, and what it appends it can produce. -/
theorem decItem_next (w : InItem) (s : State) :
    ∃ d new, decItem w s = .next (s.setDec d) ∧ d.inp = s.dec.inp ∧ d.outTaken = s.dec.outTaken ∧
      (d.busy = false → d.cnt = 0#2) ∧ d.outWait = s.dec.outWait ++ new ∧ ∀ w ∈ new, decOutOk w := by
  have ok0 : decOutOk (0x200#10) := .inl rfl
  have ok1 : decOutOk (0x300#10) := .inr (.inl rfl)
  cases hw : inItemEnd w
  · cases hr : rev (decVariant s) (inItemData w) with
    | none =>
      refine ⟨_, [], (by simp [decItem, hw, execDecInChar, decLatch_eq, hr]; rfl), ?_⟩
      simp
    | some val =>
      obtain h | h | h | h := cnt_cases s.dec.cnt
      · refine ⟨_, [], (by simp [decItem, hw, execDecInChar, decLatch_eq, hr, decSymbol, h]; rfl), ?_⟩
        simp
      · refine ⟨_, [], (by simp [decItem, hw, execDecInChar, decLatch_eq, hr, decSymbol, h]; rfl), ?_⟩
        simp
      · refine ⟨_, [], (by simp [decItem, hw, execDecInChar, decLatch_eq, hr, decSymbol, h]; rfl), ?_⟩
        simp
      · refine ⟨_, [outData (pack1 s.dec.s1 s.dec.s2), outData (pack2 s.dec.s2 s.dec.s3), outData (pack3 s.dec.s3 val)],
          (by simp [decItem, hw, execDecInChar, decLatch_eq, hr, decSymbol, h]; rfl), ?_⟩
        simp [decOutOk_data]
  · obtain h | h | h | h := cnt_cases s.dec.cnt
    · refine ⟨_, [0x200#10], (by simp [decItem, hw, execDecInEnd, decLatch_eq, decFinish, malformed, errFlag, h]; rfl), ?_⟩
      simp [ok0]
    · refine ⟨_, [0x300#10],
        (by simp [decItem, hw, execDecInEnd, decLatch_eq, decFinish, malformed, errFlag, raiseMalformed, h]; rfl), ?_⟩
      simp [ok1]
    · refine ⟨_, [outData (pack1 s.dec.s1 s.dec.s2), 0x200#10],
        (by simp [decItem, hw, execDecInEnd, decLatch_eq, decFinish, malformed, errFlag, h]; rfl), ?_⟩
      simp [ok0, decOutOk_data]
    · refine ⟨_, [outData (pack1 s.dec.s1 s.dec.s2), outData (pack2 s.dec.s2 s.dec.s3), 0x200#10],
        (by simp [decItem, hw, execDecInEnd, decLatch_eq, decFinish, malformed, errFlag, h]; rfl), ?_⟩
      simp [ok0, decOutOk_data]

/-- An encoder operation on a stream that starts with an item that is no END (R101). -/
theorem encMessage_data (b : Byte) (rest : List InItem) (s : State) :
    encMessage (inData b :: rest) s =
      match execEncInData b (s.setEnc { s.enc with inp := rest }) with
      | .next t => encMessage rest t
      | .fault r => .fault r
      | .refused r => .refused r := by
  simp only [encMessage, encItem, inItemEnd_inData, inItemData_inData, Bool.false_eq_true, if_false]
  all_goals cases execEncInData b (s.setEnc { s.enc with inp := rest }) <;> rfl

/-- An encoder operation on a stream that starts with END stops after it (R101). -/
theorem encMessage_end (d : Byte) (rest : List InItem) (s : State) :
    encMessage (inEnd d :: rest) s = execEncInEnd d (s.setEnc { s.enc with inp := rest }) := by
  simp only [encMessage, encItem, inItemEnd_inEnd, inItemData_inEnd, if_true]
  cases execEncInEnd d (s.setEnc { s.enc with inp := rest }) <;> rfl

/-- A decoder operation on a stream that starts with an item that is no END (R101). -/
theorem decMessage_char (c : Byte) (rest : List InItem) (s : State) :
    decMessage (inData c :: rest) s =
      match execDecInChar c (s.setDec { s.dec with inp := rest }) with
      | .next t => decMessage rest t
      | .fault r => .fault r
      | .refused r => .refused r := by
  simp only [decMessage, decItem, inItemEnd_inData, inItemData_inData, Bool.false_eq_true, if_false]
  all_goals cases execDecInChar c (s.setDec { s.dec with inp := rest }) <;> rfl

/-- A decoder operation on a stream that starts with END stops after it (R101). -/
theorem decMessage_end (d : Byte) (rest : List InItem) (s : State) :
    decMessage (inEnd d :: rest) s = execDecInEnd d (s.setDec { s.dec with inp := rest }) := by
  simp only [decMessage, decItem, inItemEnd_inEnd, inItemData_inEnd, if_true]
  cases execDecInEnd d (s.setDec { s.dec with inp := rest }) <;> rfl

/-- The encoder over its whole stream: it takes the items up to and including the first END and touches only itself. -/
theorem encMessage_next (l : List InItem) (s : State) (hl : s.enc.inp = l) (h : s.enc.cnt ≠ 3#2) :
    ∃ e new, encMessage l s = .next (s.setEnc e) ∧ e.inp = afterEnd l ∧ e.outTaken = s.enc.outTaken ∧
      e.cnt ≠ 3#2 ∧ ((s.enc.busy = false → s.enc.cnt = 0#2) → e.busy = false → e.cnt = 0#2) ∧
      e.outWait = s.enc.outWait ++ new ∧ ∀ w ∈ new, encOutOk w := by
  induction l generalizing s with
  | nil => exact ⟨s.enc, [], by simp [encMessage]; rfl, hl, rfl, h, id, by simp, by simp⟩
  | cons w rest ih =>
    obtain ⟨e, new, he, e1, e2, e3, e4, e5, e6⟩ := encItem_next w (s.setEnc { s.enc with inp := rest }) h
    have hs : (s.setEnc { s.enc with inp := rest }).setEnc e = s.setEnc e := rfl
    rw [hs] at he
    cases hw : inItemEnd w with
    | true =>
      exact ⟨e, new, by simp [encMessage, he, hw], by simpa [afterEnd, hw] using e1, e2, e3, fun _ => e4, e5, e6⟩
    | false =>
      obtain ⟨e', new', he', f1, f2, f3, f4, f5, f6⟩ := ih (s.setEnc e) (by simpa using e1) (by simpa using e3)
      refine ⟨e', new ++ new', ?_, by simpa [afterEnd, hw] using f1, f2.trans e2, f3, fun _ => f4 (by simpa using e4),
        ?_, ?_⟩
      · simp only [encMessage, he, hw]
        exact he'
      · rw [f5]
        simp [e5]
      · simp only [List.mem_append]
        exact fun w hw => hw.elim (e6 w) (f6 w)

/-- The decoder over its whole stream: it takes the items up to and including the first END and touches only itself. -/
theorem decMessage_next (l : List InItem) (s : State) (hl : s.dec.inp = l) :
    ∃ d new, decMessage l s = .next (s.setDec d) ∧ d.inp = afterEnd l ∧ d.outTaken = s.dec.outTaken ∧
      ((s.dec.busy = false → s.dec.cnt = 0#2) → d.busy = false → d.cnt = 0#2) ∧
      d.outWait = s.dec.outWait ++ new ∧ ∀ w ∈ new, decOutOk w := by
  induction l generalizing s with
  | nil => exact ⟨s.dec, [], by simp [decMessage]; rfl, hl, rfl, id, by simp, by simp⟩
  | cons w rest ih =>
    obtain ⟨d, new, hd, d1, d2, d4, d5, d6⟩ := decItem_next w (s.setDec { s.dec with inp := rest })
    have hs : (s.setDec { s.dec with inp := rest }).setDec d = s.setDec d := rfl
    rw [hs] at hd
    cases hw : inItemEnd w with
    | true =>
      exact ⟨d, new, by simp [decMessage, hd, hw], by simpa [afterEnd, hw] using d1, d2, fun _ => d4, d5, d6⟩
    | false =>
      obtain ⟨d', new', hd', f1, f2, f4, f5, f6⟩ := ih (s.setDec d) (by simpa using d1)
      refine ⟨d', new ++ new', ?_, by simpa [afterEnd, hw] using f1, f2.trans d2, fun _ => f4 (by simpa using d4), ?_, ?_⟩
      · simp only [decMessage, hd, hw]
        exact hd'
      · rw [f5]
        simp [d5]
      · simp only [List.mem_append]
        exact fun w hw => hw.elim (d6 w) (f6 w)

end Sys2Proof.Machine
end

