-- ==== Sys2Proof/Laws/Steps.lean ====
section
/-! SUPPORT. From a word to its meaning: every input item decodes to the item meanings, every producible output item
decodes, and a unit's step depends on that unit and its control register only. -/

namespace Sys2Proof.Machine

/-- A byte as a number has no bit 8. -/
theorem byte_bit8 (b : Byte) : b.toNat.testBit 8 = false := Nat.testBit_lt_two_pow b.isLt

/-- A byte as a number has no bit 9. -/
theorem byte_bit9 (b : Byte) : b.toNat.testBit 9 = false :=
  Nat.testBit_lt_two_pow (Nat.lt_trans b.isLt (by decide))

/-- The data field of an END item as a number (R84, R85). -/
theorem itemData_end (b : Byte) : itemData (0x100 + b.toNat) = b := by
  have := b.isLt
  refine BitVec.eq_of_toNat_eq ?_
  rw [itemData, BitVec.toNat_ofNat]
  omega

/-- Bit 8 of an END item (R84, R85). -/
theorem endItem_bit8 (b : Byte) : (0x100 + b.toNat).testBit 8 = true := by
  rw [show 0x100 = 2 ^ 8 by rfl, Nat.testBit_two_pow_add_eq, byte_bit8]
  rfl

/-- A DATA item decodes to its row (R84). -/
theorem decode_encIn_data (b : Byte) : decode .encIn (inData b).toNat = .ok (.encInData b) := by
  have := b.isLt
  rw [inData_toNat]
  simp only [decode, decodeEncIn, byte_bit8, itemData, BitVec.ofNat_toNat, BitVec.setWidth_eq, Bool.false_eq_true,
    if_false]
  rw [if_pos (by omega)]

/-- An END item decodes to its row, whatever its data field (R84). -/
theorem decode_encIn_end (b : Byte) : decode .encIn (inEnd b).toNat = .ok (.encInEnd b) := by
  have := b.isLt
  rw [inEnd_toNat]
  simp only [decode, decodeEncIn, endItem_bit8, itemData_end, if_true]
  rw [if_pos (by omega)]

/-- A CHAR item decodes to its row (R85). -/
theorem decode_decIn_char (c : Byte) : decode .decIn (inData c).toNat = .ok (.decInChar c) := by
  have := c.isLt
  rw [inData_toNat]
  simp only [decode, decodeDecIn, byte_bit8, itemData, BitVec.ofNat_toNat, BitVec.setWidth_eq, Bool.false_eq_true,
    if_false]
  rw [if_pos (by omega)]

/-- An END item decodes to its row, whatever its data field (R85). -/
theorem decode_decIn_end (b : Byte) : decode .decIn (inEnd b).toNat = .ok (.decInEnd b) := by
  have := b.isLt
  rw [inEnd_toNat]
  simp only [decode, decodeDecIn, endItem_bit8, itemData_end, if_true]
  rw [if_pos (by omega)]

/-- An encoder CHAR item decodes to its row (R86). -/
theorem decode_encOut_char (c : Byte) : decode .encOut (outData c).toNat = .ok (.encOutChar c) := by
  have := c.isLt
  rw [outData_toNat]
  simp only [decode, decodeEncOut, byte_bit8, byte_bit9, itemData, BitVec.ofNat_toNat, BitVec.setWidth_eq,
    Bool.false_eq_true, if_false]
  rw [if_pos (by omega)]

/-- A BYTE item decodes to its row (R87). -/
theorem decode_decOut_byte (b : Byte) : decode .decOut (outData b).toNat = .ok (.decOutByte b) := by
  have := b.isLt
  rw [outData_toNat]
  simp only [decode, decodeDecOut, byte_bit8, byte_bit9, itemData, BitVec.ofNat_toNat, BitVec.setWidth_eq,
    Bool.false_eq_true, if_false]
  rw [if_pos (by omega)]

/-- Every input item of the encoder decodes to the instruction whose meaning is the encoder's step on it. -/
theorem decode_encIn_item (w : InItem) : ∃ i, decode .encIn w.toNat = .ok i ∧ ∀ s, exec i s = encItem w s := by
  obtain ⟨b, rfl⟩ | ⟨b, rfl⟩ := inItem_cases w
  · exact ⟨_, decode_encIn_data b, fun s => by simp [exec, encItem]⟩
  · exact ⟨_, decode_encIn_end b, fun s => by simp [exec, encItem]⟩

/-- Every input item of the decoder decodes to the instruction whose meaning is the decoder's step on it. -/
theorem decode_decIn_item (w : InItem) : ∃ i, decode .decIn w.toNat = .ok i ∧ ∀ s, exec i s = decItem w s := by
  obtain ⟨b, rfl⟩ | ⟨b, rfl⟩ := inItem_cases w
  · exact ⟨_, decode_decIn_char b, fun s => by simp [exec, decItem]⟩
  · exact ⟨_, decode_decIn_end b, fun s => by simp [exec, decItem]⟩

/-- In two states that agree on the encoder and ENC_CTRL the encoder's step does the same (R68). -/
theorem encItem_local (w : InItem) (s u : State) (h1 : u.enc = s.enc) (h2 : u.encCtrl = s.encCtrl) :
    (∃ e, encItem w s = .next (s.setEnc e) ∧ encItem w u = .next (u.setEnc e)) ∨
      (encItem w s = .fault .encCntThree ∧ encItem w u = .fault .encCntThree) := by
  have hl : encLatch u = encLatch s := by
    rw [encLatch_eq, encLatch_eq, encVariant, encVariant, encPad, encPad, h1, h2]
  cases hw : inItemEnd w <;>
    simp only [encItem, hw, execEncInData, execEncInEnd, hl, if_true, Bool.false_eq_true, if_false] <;>
    rcases cnt_cases (encLatch s).cnt with h | h | h | h <;> simp [h]
  all_goals exact ⟨_, rfl, rfl⟩

/-- In two states that agree on the decoder and DEC_CTRL the decoder's step does the same (R68). -/
theorem decItem_local (w : InItem) (s u : State) (h1 : u.dec = s.dec) (h2 : u.decCtrl = s.decCtrl) :
    ∃ d, decItem w s = .next (s.setDec d) ∧ decItem w u = .next (u.setDec d) := by
  have hl : decLatch u = decLatch s := by rw [decLatch_eq, decLatch_eq, decVariant, decVariant, h1, h2]
  cases hw : inItemEnd w <;>
    simp only [decItem, hw, execDecInChar, execDecInEnd, hl, if_true, Bool.false_eq_true, if_false]
  · cases rev (decLatch s).cfgV (inItemData w) <;> exact ⟨_, rfl, rfl⟩
  · exact ⟨_, rfl, rfl⟩

/-- The encoder's turn on a waiting item: take it, then the encoder's step on it (R56). -/
theorem step_enc_item {s : State} {sched : List Agent} {w : InItem} {rest : List InItem}
    (h1 : s.sched = .enc :: sched) (h2 : s.enc.inp = w :: rest) :
    step s = encItem w ((s.setSched sched).setEnc { s.enc with inp := rest }) := by
  obtain ⟨i, hi, hx⟩ := decode_encIn_item w
  rw [← hx]
  simp [step, fetch, nextAgent, h1, fetchEnc, h2, hi]

/-- The decoder's turn on a waiting item: take it, then the decoder's step on it (R56). -/
theorem step_dec_item {s : State} {sched : List Agent} {w : InItem} {rest : List InItem}
    (h1 : s.sched = .dec :: sched) (h2 : s.dec.inp = w :: rest) :
    step s = decItem w ((s.setSched sched).setDec { s.dec with inp := rest }) := by
  obtain ⟨i, hi, hx⟩ := decode_decIn_item w
  rw [← hx]
  simp [step, fetch, nextAgent, h1, fetchDec, h2, hi]

/-- An empty schedule is a schedule of one turn, that of the default agent (R100, notes/assumptions/6.md). -/
theorem step_default (s : State) (h : s.sched = []) : step s = step { s with sched := [defaultAgent s] } := by
  simp only [step, fetch, nextAgent, h]
  rfl

/-- The default agent at a script line other than RUN is the host. -/
theorem defaultAgent_line {s : State} {a : HostAct} {rest : List HostAct} (h : s.script = a :: rest) (ha : a ≠ .run) :
    defaultAgent s = .host := by
  cases a <;> simp_all [defaultAgent]

end Sys2Proof.Machine
end

