-- ==== Sys2Proof/Tests/Slice0.lean ====
section
/-! SUPPORT. Tests of base64_codec. Expected values come from the spec: the words from spec/30_encoding.md R81 to R87,
the steps from the vectors of spec/95_test_vectors.md (E, T, S, D, Z and X rows). After them one witness, or more, for
the hypotheses of every statement that has any. -/

namespace Sys2Proof.Tests

open Sys2Proof Sys2Proof.Machine

/-! ### Well-formedness -/

/-- No encoder operation can emit the code 0x00 (R86, V4). -/
theorem test_wf_refuses_foreign_encoder_output : (Instr.encOutChar 0x00#8).wellFormed = false := by decide
/-- A code just past `Z` is in neither alphabet. -/
theorem test_wf_refuses_bracket : (Instr.encOutChar 0x5B#8).wellFormed = false := by decide
/-- `=` and the variant characters can be emitted. -/
theorem test_wf_accepts_encoder_outputs :
    [Instr.encOutChar 0x3D#8, .encOutChar 0x2B#8, .encOutChar 0x5F#8, .encInData 0x00#8, .decInChar 0xFF#8].all
      Instr.wellFormed = true := by decide

/-! ### Decoding: one word per row, written out from the spec -/

theorem test_decode_op : [0b000, 0b001, 0b010, 0b011, 0b100, 0b101].map (decode .op) =
    [.ok .encStdNopad, .ok .encUrlNopad, .ok .encStdPad, .ok .encUrlPad, .ok .decStd, .ok .decUrl] := by decide
theorem test_decode_op_rejects : [6, 7, 8].map (decode .op) =
    [.rejected .opUnformable, .rejected .opUnformable, .rejected .wordTooWide] := by decide
theorem test_decode_enc_in_data : decode .encIn 0b001001101 = .ok (.encInData 0x4D#8) := by decide
theorem test_decode_enc_in_end : decode .encIn 0b100000000 = .ok (.encInEnd 0x00#8) := by decide
theorem test_decode_enc_in_end_data : decode .encIn 0x1A5 = .ok (.encInEnd 0xA5#8) := by decide
theorem test_decode_dec_in_char : decode .decIn 0b000111101 = .ok (.decInChar 0x3D#8) := by decide
theorem test_decode_dec_in_end : decode .decIn 0b100000000 = .ok (.decInEnd 0x00#8) := by decide
theorem test_decode_enc_out_char : decode .encOut 0b0001010100 = .ok (.encOutChar 0x54#8) := by decide
theorem test_decode_enc_out_end0 : decode .encOut 0b1000000000 = .ok .encOutEnd0 := by decide
theorem test_decode_enc_out_rejects : [0x300, 0x100, 0x201, 0x400].map (decode .encOut) =
    [.rejected .reservedOutput, .rejected .reservedOutput, .rejected .reservedOutput, .rejected .wordTooWide] := by
  decide
theorem test_decode_dec_out_byte : decode .decOut 0b0011111111 = .ok (.decOutByte 0xFF#8) := by decide
theorem test_decode_dec_out_end0 : decode .decOut 0b1000000000 = .ok .decOutEnd0 := by decide
theorem test_decode_dec_out_end1 : decode .decOut 0b1100000000 = .ok .decOutEnd1 := by decide
/-- Z5: bits above the defined ones are ignored. -/
theorem test_decode_enc_ctrl : [0b10, 7].map (decode .cr0) = [.ok (.encCtrl 0b10#2), .ok (.encCtrl 0b11#2)] := by decide
/-- Z6. -/
theorem test_decode_dec_ctrl : [0b1, 3, 2].map (decode .cr1) =
    [.ok (.decCtrl 1#1), .ok (.decCtrl 1#1), .ok (.decCtrl 0#1)] := by decide
theorem test_table_words : [(8, 2), (8, 5), (16, 0x04D), (16, 0x1FF), (16, 0x200), (16, 0x300)].map
    (fun p => decodeTableWord p.1 p.2) =
    [some .encStdPad, some .decUrl, some (.encInData 0x4D#8), some (.encInEnd 0xFF#8), some .encOutEnd0,
      some .decOutEnd1] := by decide

/-! ### Steps -/

/-- The state of a successful outcome. -/
def nextOf (o : Host.Outcome State Fault Refusal) : Option State :=
  match o with
  | .next t => some t
  | .fault _ => none
  | .refused _ => none

/-- An encoder in the given state, in the column order of the E rows, with empty streams. -/
def encSt (ctrl : BitVec 2) (busy : Bool) (cnt : BitVec 2) (v : Variant) (p : Bool) (b1 b2 : Byte) : State :=
  { State.reset with
    encCtrl := ctrl, enc := { EncUnit.reset with cfgV := v, cfgP := p, b1 := b1, b2 := b2, cnt := cnt, busy := busy } }

/-- A decoder in the given state, in the column order of the T rows, with empty streams. -/
def decSt (ctrl : BitVec 1) (busy : Bool) (cnt : BitVec 2) (v : Variant) (s1 s2 s3 : Sym) : State :=
  { State.reset with
    decCtrl := ctrl, dec := { DecUnit.reset with cfgV := v, s1 := s1, s2 := s2, s3 := s3, cnt := cnt, busy := busy } }

/-- The encoder after a step, in the column order of the E rows, with what it emitted. -/
def encAfter (busy : Bool) (cnt : BitVec 2) (v : Variant) (p : Bool) (b1 b2 : Byte) (out : List OutItem) :
    Option EncUnit :=
  some { EncUnit.reset with cfgV := v, cfgP := p, b1 := b1, b2 := b2, cnt := cnt, busy := busy, outWait := out }

/-- The decoder after a step, in the column order of the T rows, with what it emitted. -/
def decAfter (busy : Bool) (cnt : BitVec 2) (v : Variant) (s1 s2 s3 : Sym) (out : List OutItem) : Option DecUnit :=
  some { DecUnit.reset with cfgV := v, s1 := s1, s2 := s2, s3 := s3, cnt := cnt, busy := busy, outWait := out }

/-- E4: the latched variant is used, not ENC_CTRL. -/
theorem test_E4 : (nextOf (exec (.encInData 0xBF#8) (encSt 0b00#2 true 2#2 .url false 0xFB#8 0xFF#8))).map (·.enc) =
    encAfter true 0#2 .url false 0xFB#8 0xFF#8 [0x02D#10, 0x05F#10, 0x02D#10, 0x05F#10] := by decide
/-- E13: a new message latches anew. -/
theorem test_E13 : (nextOf (exec (.encInData 0x00#8) (encSt 0b01#2 false 0#2 .std true 0x4D#8 0x61#8))).map (·.enc) =
    encAfter true 1#2 .url false 0x00#8 0x61#8 [] := by decide
/-- E9: `b2` is dead at `cnt = 1`. -/
theorem test_E9 : (nextOf (exec (.encInEnd 0x00#8) (encSt 0b00#2 true 1#2 .url true 0xFF#8 0x12#8))).map (·.enc) =
    encAfter false 0#2 .url true 0xFF#8 0x12#8 [0x05F#10, 0x077#10, 0x03D#10, 0x03D#10, 0x200#10] := by decide
/-- E12. -/
theorem test_E12 : (nextOf (exec (.encInEnd 0xA5#8) (encSt 0b10#2 true 2#2 .url false 0xFB#8 0xFF#8))).map (·.enc) =
    encAfter false 0#2 .url false 0xFB#8 0xFF#8 [0x02D#10, 0x05F#10, 0x038#10, 0x200#10] := by decide
/-- T12: truncation to 8 bits. -/
theorem test_T12 : (nextOf (exec (.decInChar 0x44#8) (decSt 1#1 true 3#2 .std 0#6 16#6 8#6))).map (·.dec) =
    decAfter true 0#2 .std 0#6 16#6 8#6 [0x001#10, 0x002#10, 0x003#10] := by decide
/-- T22: latch first, then classify. -/
theorem test_T22 : (nextOf (exec (.decInChar 0x5F#8) (decSt 1#1 false 0#2 .std 19#6 22#6 5#6))).map (·.dec) =
    decAfter true 1#2 .url 63#6 22#6 5#6 [] := by decide
/-- T16: no byte beside the error. -/
theorem test_T16 : (nextOf (exec (.decInEnd 0x00#8) (decSt 0#1 true 1#2 .std 19#6 22#6 5#6))).map (·.dec) =
    decAfter false 0#2 .std 19#6 22#6 5#6 [0x300#10] := by decide
/-- T19. -/
theorem test_T19 : (nextOf (exec (.decInEnd 0x00#8) (decSt 0#1 true 3#2 .std 19#6 22#6 4#6))).map (·.dec) =
    decAfter false 0#2 .std 19#6 22#6 4#6 [0x04D#10, 0x061#10, 0x200#10] := by decide

/-- A reset machine with items waiting in both units' input streams. -/
def inputs (e d : List InItem) : State :=
  { State.reset with enc := { EncUnit.reset with inp := e }, dec := { DecUnit.reset with inp := d } }

/-- P1's message `0xFB 0xFF 0xBF 0xFB 0xFF`, under ENC.URL.PAD: `-_-_-_8=`. -/
theorem test_enc_url_pad :
    (nextOf (exec .encUrlPad (inputs [0x0FB#9, 0x0FF#9, 0x0BF#9, 0x0FB#9, 0x0FF#9, 0x100#9] []))).map (·.enc.outWait) =
      some [0x02D#10, 0x05F#10, 0x02D#10, 0x05F#10, 0x02D#10, 0x05F#10, 0x038#10, 0x03D#10, 0x200#10] := by decide
/-- Z10's message under ENC.STD.PAD: `TQ==`. -/
theorem test_enc_std_pad : (nextOf (exec .encStdPad (inputs [0x04D#9, 0x100#9] []))).map (·.enc.outWait) =
    some [0x054#10, 0x051#10, 0x03D#10, 0x03D#10, 0x200#10] := by decide
/-- Z2's message under ENC.STD.NOPAD: `+w`; the item after END stays. -/
theorem test_enc_std_nopad :
    (nextOf (exec .encStdNopad (inputs [0x0FB#9, 0x100#9, 0x061#9] []))).map (fun t => (t.enc.outWait, t.enc.inp)) =
      some ([0x02B#10, 0x077#10, 0x200#10], [0x061#9]) := by decide
/-- The byte of E9 under ENC.URL.NOPAD: `_w`. -/
theorem test_enc_url_nopad : (nextOf (exec .encUrlNopad (inputs [0x0FF#9, 0x100#9] []))).map (·.enc.outWait) =
    some [0x05F#10, 0x077#10, 0x200#10] := by decide
/-- X2: three void bytes and the error. -/
theorem test_dec_std :
    (nextOf (exec .decStd (inputs [] [0x054#9, 0x057#9, 0x046#9, 0x075#9, 0x054#9, 0x100#9]))).map (·.dec.outWait) =
      some [0x04D#10, 0x061#10, 0x06E#10, 0x300#10] := by decide
/-- D56. -/
theorem test_dec_url : (nextOf (exec .decUrl (inputs [] [0x05F#9, 0x077#9, 0x100#9]))).map (·.dec.outWait) =
    some [0x0FF#10, 0x200#10] := by decide

/-- A consumer in the middle of an encoder and a decoder message. -/
def receiving : State :=
  { State.reset with rx := { Consumer.empty with encChars := [0x54#8], decBytes := [0x4D#8, 0x61#8] } }

theorem test_enc_out_char : (nextOf (exec (.encOutChar 0x51#8) receiving)).map (·.rx.encChars) =
    some [0x54#8, 0x51#8] := by decide
theorem test_enc_out_end0 : (nextOf (exec .encOutEnd0 receiving)).map (fun t => (t.rx.encChars, t.rx.encResults)) =
    some ([], [[0x54#8]]) := by decide
theorem test_dec_out_byte : (nextOf (exec (.decOutByte 0x6E#8) receiving)).map (·.rx.decBytes) =
    some [0x4D#8, 0x61#8, 0x6E#8] := by decide
theorem test_dec_out_end0 : (nextOf (exec .decOutEnd0 receiving)).map (fun t => (t.rx.decBytes, t.rx.decResults)) =
    some ([], [.ok [0x4D#8, 0x61#8]]) := by decide
/-- X2: the bytes in hand are void. -/
theorem test_dec_out_end1 : (nextOf (exec .decOutEnd1 receiving)).map (fun t => (t.rx.decBytes, t.rx.decResults)) =
    some ([], [.malformedEncoding]) := by decide
/-- Z4. -/
theorem test_enc_ctrl : (nextOf (exec (.encCtrl 0b11#2) State.reset)).map (fun t => (readCr t .cr0, readCr t .cr1)) =
    some (3, 0) := by decide
/-- Z6. -/
theorem test_dec_ctrl : (nextOf (exec (.decCtrl 1#1) State.reset)).map (fun t => (readCr t .cr0, readCr t .cr1)) =
    some (0, 1) := by decide
/-- A word placed by `withFetchWord` is run by the very next step. -/
theorem test_withFetchWord :
    (nextOf (step (State.reset.withFetchWord 16 0x04D))).map (fun t => (t.enc.b1, t.enc.cnt)) = some (0x4D#8, 1#2) := by
  decide
theorem test_withFetchWord_output :
    (nextOf (step (State.reset.withFetchWord 16 0x300))).map (·.rx.decResults) = some [.malformedEncoding] := by decide
/-- Z7: a reset in mid-message. -/
theorem test_reset : (nextOf (step { encSt 0b10#2 true 1#2 .std true 0x4D#8 0x00#8 with script := [.reset] })).map
    (fun t => (t.encCtrl, t.enc.busy, t.enc.cnt)) = some (0b00#2, false, 0#2) := by decide
/-- A unit's own reset acts on that unit alone (R230): the encoder is reset, a decoder in mid-message is not. -/
theorem test_reset_unit :
    (nextOf (step { decSt 1#1 true 2#2 .url 19#6 22#6 0#6 with encCtrl := 0b11#2, script := [.resetUnit .enc] })).map
      (fun t => (t.encCtrl, t.decCtrl, t.dec.cnt)) = some (0b00#2, 1#1, 2#2) := by decide
/-- OP 6 cannot be formed (R95). -/
theorem test_op_unformable : nextOf (step { State.reset with script := [.op 6] }) = none := by decide

/-! ### Witnesses: states and operands that meet the hypotheses of the statements, at the ends of their ranges -/

/-- EncodeInvertsDecodeWord: the greatest accepted word of each port. -/
theorem test_witness_EncodeInvertsDecodeWord :
    (5 < 2 ^ Port.op.width ∧ decode .op 5 = .ok .decUrl) ∧
    (3 < 2 ^ Port.cr0.width ∧ decode .cr0 3 = .ok (.encCtrl 3#2)) ∧
    (1 < 2 ^ Port.cr1.width ∧ decode .cr1 1 = .ok (.decCtrl 1#1)) ∧
    (0x1FF < 2 ^ Port.encIn.width ∧ decode .encIn 0x1FF = .ok (.encInEnd 0xFF#8)) ∧
    (0x1FF < 2 ^ Port.decIn.width ∧ decode .decIn 0x1FF = .ok (.decInEnd 0xFF#8)) ∧
    (0x200 < 2 ^ Port.encOut.width ∧ decode .encOut 0x200 = .ok .encOutEnd0) ∧
    (0x300 < 2 ^ Port.decOut.width ∧ decode .decOut 0x300 = .ok .decOutEnd1) := by decide
theorem test_witness_RevInvertsAlpha : rev .std 0x2F#8 = some 63#6 ∧ ∀ i : Sym, alpha .std i ≠ 0x3D#8 := by decide
theorem test_witness_VariantsDifferOnlyAt62And63 : (61#6).toNat ≤ 61 := by decide
theorem test_witness_CharacterClasses :
    [0x41, 0x5A, 0x61, 0x7A, 0x30, 0x39, 0x2B, 0x2F].map (fun n => isSymbol .std (BitVec.ofNat 8 n)) =
      List.replicate 8 true ∧
    [0x40, 0x5B, 0x60, 0x7B, 0x3A, 0x2D, 0x5F, 0x3D].map (fun n => isSymbol .std (BitVec.ofNat 8 n)) =
      List.replicate 8 false := by decide

/-- The host's turn with the given action next, on an encoder in mid-message. -/
def hostTurn (a : HostAct) : State :=
  { encSt 0b10#2 true 1#2 .std true 0x4D#8 0x00#8 with script := [a], sched := [.host] }

/-- ResetAbandonsTheMessage: the common reset and the reset of each unit. -/
theorem test_witness_ResetAbandonsTheMessage :
    ((hostTurn .reset).sched = .host :: [] ∧ (hostTurn .reset).script = .reset :: []) ∧
    ((hostTurn (.resetUnit .enc)).sched = .host :: [] ∧
      (hostTurn (.resetUnit .enc)).script = .resetUnit .enc :: []) ∧
    ((hostTurn (.resetUnit .dec)).sched = .host :: [] ∧
      (hostTurn (.resetUnit .dec)).script = .resetUnit .dec :: []) := by decide
theorem test_witness_ReservedControlBitsIgnored :
    let s := { State.reset with sched := [.host, .host], script := [.write .cr0 7, .read .cr0] }
    let u := { s with script := [.write .cr1 3, .read .cr1] }
    (s.sched = .host :: .host :: [] ∧ s.script = .write .cr0 7 :: .read .cr0 :: []) ∧
    (u.sched = .host :: .host :: [] ∧ u.script = .write .cr1 3 :: .read .cr1 :: []) := by decide
/-- MidMessageWriteHasNoEffect: a busy encoder whose step answers next, one whose step faults, and a busy decoder. -/
theorem test_witness_MidMessageWriteHasNoEffect :
    ((encSt 0#2 true 2#2 .url true 0#8 0#8).enc.busy = true ∧
      ∃ t, exec (.encInData 0#8) (encSt 0#2 true 2#2 .url true 0#8 0#8) = .next t) ∧
    ((encSt 0#2 true 3#2 .url true 0#8 0#8).enc.busy = true ∧
      exec (.encInEnd 0#8) (encSt 0#2 true 3#2 .url true 0#8 0#8) = .fault .encCntThree) ∧
    (decSt 0#1 true 3#2 .url 0#6 0#6 0#6).dec.busy = true :=
  ⟨⟨rfl, _, rfl⟩, ⟨rfl, rfl⟩, rfl⟩
/-- EncMessageStartLatches: an idle and a busy encoder, DATA and END. -/
theorem test_witness_EncMessageStartLatches :
    ((encSt 3#2 false 0#2 .std false 0#8 0#8).enc.busy = false ∧
      ∃ t, exec (.encInData 0#8) (encSt 3#2 false 0#2 .std false 0#8 0#8) = .next t) ∧
    ((encSt 3#2 true 2#2 .std false 0#8 0#8).enc.busy = true ∧
      ∃ t, exec (.encInEnd 0#8) (encSt 3#2 true 2#2 .std false 0#8 0#8) = .next t) :=
  ⟨⟨rfl, _, rfl⟩, ⟨rfl, _, rfl⟩⟩
/-- The encoder's step statements: a state for each value of `cnt`, busy, and idle where `cnt = 0`. -/
theorem test_witness_encoder_cnt :
    [0#2, 1#2, 2#2, 3#2].map (fun c => (encSt 0#2 true c .std true 0xFF#8 0xFF#8).enc.cnt) = [0#2, 1#2, 2#2, 3#2] ∧
    (encSt 3#2 false 0#2 .std true 0xFF#8 0xFF#8).enc.cnt = 0#2 := by decide
theorem test_witness_DecMessageStartLatches :
    (decSt 1#1 false 0#2 .std 0#6 0#6 0#6).dec.busy = false ∧ (decSt 1#1 true 3#2 .std 0#6 0#6 0#6).dec.busy = true := by
  decide
/-- T2 and T21: `+` under a URL variant read at the message start, `_` under a latched standard variant. -/
theorem test_witness_DecForeignDropped :
    isSymbol (decVariant (decSt 1#1 false 0#2 .std 0#6 0#6 0#6)) 0x2B#8 = false ∧
    isSymbol (decVariant (decSt 1#1 true 3#2 .std 0#6 0#6 0#6)) 0x5F#8 = false := by decide
/-- DecSymbolHeld and DecFourthSymbolEmitsQuad: the symbols of greatest value at each `cnt`. -/
theorem test_witness_decoder_symbols :
    (rev (decVariant (decSt 1#1 false 0#2 .std 0#6 0#6 0#6)) 0x5F#8 = some 63#6 ∧
      (decSt 1#1 false 0#2 .std 0#6 0#6 0#6).dec.cnt = 0#2) ∧
    (rev (decVariant (decSt 1#1 true 1#2 .std 0#6 0#6 0#6)) 0x2F#8 = some 63#6 ∧
      (decSt 1#1 true 1#2 .std 0#6 0#6 0#6).dec.cnt = 1#2) ∧
    (rev (decVariant (decSt 1#1 true 2#2 .std 0#6 0#6 0#6)) 0x2B#8 = some 62#6 ∧
      (decSt 1#1 true 2#2 .std 0#6 0#6 0#6).dec.cnt = 2#2) ∧
    (rev (decVariant (decSt 1#1 true 3#2 .std 0#6 0#6 0#6)) 0x41#8 = some 0#6 ∧
      (decSt 1#1 true 3#2 .std 0#6 0#6 0#6).dec.cnt = 3#2) := by decide
/-- The decoder's END statements and ErrorExactlyAtOneSymbol: a state for each value of `cnt`. -/
theorem test_witness_decoder_cnt :
    [0#2, 1#2, 2#2, 3#2].map (fun c => (decSt 0#1 true c .std 63#6 63#6 63#6).dec.cnt) = [0#2, 1#2, 2#2, 3#2] := by
  decide
/-- DiscardedBitsIgnored: T17 against T18, and discarded bits `0b11` against `0b00`. -/
theorem test_witness_DiscardedBitsIgnored :
    ((decSt 0#1 true 2#2 .std 19#6 16#6 0#6).dec.cnt = 2#2 ∧
      (31#6).extractLsb' 4 2 = (decSt 0#1 true 2#2 .std 19#6 16#6 0#6).dec.s2.extractLsb' 4 2) ∧
    ((decSt 0#1 true 3#2 .std 19#6 22#6 4#6).dec.cnt = 3#2 ∧
      (7#6).extractLsb' 2 4 = (decSt 0#1 true 3#2 .std 19#6 22#6 4#6).dec.s3.extractLsb' 2 4) := by decide
/-- OnlyDecoderEndRaises: an encoder item, a decoder character and a raising END that answer next. -/
theorem test_witness_OnlyDecoderEndRaises :
    (∃ t, exec (.encInEnd 0#8) (encSt 0#2 true 2#2 .std true 0#8 0#8) = .next t) ∧
    (∃ t, exec (.decInChar 0x41#8) (decSt 0#1 true 3#2 .std 0#6 0#6 0#6) = .next t ∧ Instr.decInChar 0x41#8 ≠ .decStd ∧
      Instr.decInChar 0x41#8 ≠ .decUrl ∧ ∀ d, Instr.decInChar 0x41#8 ≠ .decInEnd d) ∧
    (∃ t, exec (.decInEnd 0#8) (decSt 0#1 true 1#2 .std 0#6 0#6 0#6) = .next t) :=
  ⟨⟨_, rfl⟩, ⟨_, rfl, by decide, by decide, by simp⟩, ⟨_, rfl⟩⟩
theorem test_witness_EndLeavesUnitIdle :
    (∃ t, exec (.encInEnd 0xFF#8) (encSt 0#2 true 2#2 .std true 0#8 0#8) = .next t) ∧
    (∃ t, exec (.decInEnd 0xFF#8) (decSt 0#1 true 1#2 .std 0#6 0#6 0#6) = .next t) :=
  ⟨⟨_, rfl⟩, ⟨_, rfl⟩⟩
/-- EncoderOperationsYieldEncode and DecoderOperationsYieldDecode: one-byte and empty messages, more input behind. -/
theorem test_witness_operations :
    ((inputs [0x04D#9, 0x100#9, 0x061#9] []).enc.busy = false ∧ (inputs [0x04D#9, 0x100#9, 0x061#9] []).enc.cnt = 0#2 ∧
      (inputs [0x04D#9, 0x100#9, 0x061#9] []).enc.inp = encMessageItems [0x4D#8] 0x00#8 ++ [0x061#9]) ∧
    ((inputs [] [0x1FF#9]).dec.busy = false ∧ (inputs [] [0x1FF#9]).dec.cnt = 0#2 ∧
      (inputs [] [0x1FF#9]).dec.inp = decMessageItems [] 0xFF#8 ++ []) ∧
    ((inputs [] [0x054#9, 0x100#9]).dec.busy = false ∧ (inputs [] [0x054#9, 0x100#9]).dec.cnt = 0#2 ∧
      (inputs [] [0x054#9, 0x100#9]).dec.inp = decMessageItems [0x54#8] 0x00#8 ++ []) := by decide
theorem test_witness_OperationsAlwaysComplete :
    (encSt 0#2 true 2#2 .std true 0#8 0#8).enc.cnt ≠ 3#2 ∧
    Instr.encUrlPad ∈ [Instr.encStdNopad, .encUrlNopad, .encStdPad, .encUrlPad] ∧
    Instr.decUrl ∈ [Instr.decStd, .decUrl] := by decide
/-- EncoderStepsComputeEncode, DecoderStepsComputeDecode, CharactersAppearByGroup and BytesAppearByQuad. -/
theorem test_witness_feeds :
    State.reset.enc.busy = false ∧ State.reset.enc.cnt = 0#2 ∧ State.reset.dec.busy = false ∧ State.reset.dec.cnt = 0#2 ∧
    [3#2, 0#2].length = [0x4D#8].length + 1 ∧ [1#1].length = ([] : List Byte).length + 1 ∧
    [3#2, 0#2, 1#2].length = [0x4D#8, 0x61#8, 0x6E#8].length ∧ [1#1].length = [0x4D#8].length := by decide

/-- `TQ==` and its taking: two encoder steps, five turns of the consumer. -/
def encRunStart : State :=
  { inputs [0x04D#9, 0x100#9] [] with
    encCtrl := 0b10#2, sched := List.replicate 2 .enc ++ List.replicate 5 .host,
    script := List.replicate 5 (.take .enc) }

theorem test_witness_EncoderRunDeliversEncode :
    encRunStart.enc.busy = false ∧ encRunStart.enc.cnt = 0#2 ∧ encRunStart.enc.outWait = [] ∧
    encRunStart.rx.encChars = [] ∧ encRunStart.enc.inp = encMessageItems [0x4D#8] 0x00#8 ∧
    encRunStart.sched = List.replicate ([0x4D#8].length + 1) .enc ++
      List.replicate ((encodeMsg .std true [0x4D#8]).length + 1) .host ∧
    encRunStart.script = List.replicate ((encodeMsg .std true [0x4D#8]).length + 1) (.take .enc) := by decide

/-- The text `T` (X1) and its taking: two decoder steps, one turn of the consumer. -/
def decRunStart : State :=
  { inputs [] [0x054#9, 0x100#9] with sched := [.dec, .dec, .host], script := [.take .dec] }

theorem test_witness_DecoderRunDeliversDecode :
    decRunStart.dec.busy = false ∧ decRunStart.dec.cnt = 0#2 ∧ decRunStart.dec.outWait = [] ∧
    decRunStart.rx.decBytes = [] ∧ decRunStart.dec.inp = decMessageItems [0x54#8] 0x00#8 ∧
    decRunStart.sched = List.replicate ([0x54#8].length + 1) .dec ++
      List.replicate (3 * (decFilter .std [0x54#8]).length / 4 + 1) .host ∧
    decRunStart.script = List.replicate (3 * (decFilter .std [0x54#8]).length / 4 + 1) (.take .dec) := by decide
/-- DecodeLengthLaw: one symbol (X1), five symbols (X2), and two. -/
theorem test_witness_DecodeLengthLaw :
    (decFilter .std [0x54#8]).length % 4 = 1 ∧
    (decFilter .std [0x54#8, 0x57#8, 0x46#8, 0x75#8, 0x54#8]).length % 4 = 1 ∧
    (decFilter .std [0x54#8, 0x51#8]).length % 4 ≠ 1 := by decide
theorem test_witness_ForeignCharactersAbsent :
    isSymbol .std 0x3D#8 = false ∧ isSymbol .url 0x2F#8 = false ∧ isSymbol .std 0xFF#8 = false := by decide

/-- A machine in mid-message in both units, with every kind of output item waiting or taken. -/
def midway : State :=
  { encSt 0b10#2 true 2#2 .std true 0x4D#8 0x61#8 with
    enc := { (encSt 0b10#2 true 2#2 .std true 0x4D#8 0x61#8).enc with
      inp := [0x100#9], outTaken := [0x054#10, 0x03D#10], outWait := [0x200#10] },
    dec := { (decSt 0#1 true 1#2 .std 19#6 0#6 0#6).dec with
      inp := [0x100#9], outTaken := [0x300#10, 0x200#10], outWait := [0x0FF#10] },
    sched := [.enc] }

/-- StepKeepsInvariant and StepStopsOnlyAtUnformableOp: a state that meets the invariant and has a next state. -/
theorem test_witness_StepKeepsInvariant : Inv midway ∧ ∃ t, step midway = .next t := by
  refine ⟨⟨by decide, by decide, by decide, ?_, ?_⟩, ⟨_, rfl⟩⟩
  · intro w hw
    simp only [midway, EncUnit.out, List.cons_append, List.nil_append, List.mem_cons, List.not_mem_nil, or_false] at hw
    rcases hw with rfl | rfl | rfl
    · exact .inr ⟨0x54#8, by decide, by decide⟩
    · exact .inr ⟨0x3D#8, by decide, by decide⟩
    · exact .inl rfl
  · intro w hw
    simp only [midway, DecUnit.out, List.cons_append, List.nil_append, List.mem_cons, List.not_mem_nil, or_false] at hw
    rcases hw with rfl | rfl | rfl
    · exact .inr (.inl rfl)
    · exact .inl rfl
    · exact .inr (.inr ⟨0xFF#8, by decide⟩)

/-- StepRunsDecodedWord: its seven clauses. -/
theorem test_witness_StepRunsDecodedWord :
    (midway.sched = .enc :: [] ∧ midway.enc.inp = 0x100#9 :: [] ∧
      decode .encIn (0x100#9).toNat = .ok (.encInEnd 0x00#8)) ∧
    ({ midway with sched := [.dec] }.sched = .dec :: [] ∧ midway.dec.inp = 0x100#9 :: [] ∧
      decode .decIn (0x100#9).toNat = .ok (.decInEnd 0x00#8)) ∧
    ((hostTurn (.op 5)).sched = .host :: [] ∧ (hostTurn (.op 5)).script = .op 5 :: [] ∧ decode .op 5 = .ok .decUrl) ∧
    ((hostTurn (.write .cr0 7)).script = .write .cr0 7 :: [] ∧ decode .cr0 7 = .ok (.encCtrl 3#2)) ∧
    ((hostTurn (.write .cr1 3)).script = .write .cr1 3 :: [] ∧ decode .cr1 3 = .ok (.decCtrl 1#1)) ∧
    ({ midway with sched := [.host], script := [.take .enc] }.enc.outWait = 0x200#10 :: [] ∧
      decode .encOut (0x200#10).toNat = .ok .encOutEnd0) ∧
    ({ midway with sched := [.host], script := [.take .dec] }.dec.outWait = 0x0FF#10 :: [] ∧
      decode .decOut (0x0FF#10).toNat = .ok (.decOutByte 0xFF#8)) := by decide
/-- EmptyScheduleFollowsTheScript: a line that is not RUN though input waits, the end of the script and RUN, with input
for one unit, the other or none. -/
theorem test_witness_EmptyScheduleFollowsTheScript :
    (let s := { inputs [0x04D#9] [] with script := [.write .cr0 2, .run] };
      s.sched = [] ∧ s.script = .write .cr0 2 :: [.run] ∧ HostAct.write .cr0 2 ≠ .run) ∧
    ((inputs [0x04D#9] []).sched = [] ∧ (inputs [0x04D#9] []).script = [] ∧ (inputs [0x04D#9] []).enc.inp ≠ []) ∧
    (let s := { inputs [] [0x054#9] with script := [.run, .reset] };
      s.sched = [] ∧ (∃ rest, s.script = .run :: rest) ∧ s.enc.inp = [] ∧ s.dec.inp ≠ []) ∧
    (let s := { inputs [] [] with script := [.run, .reset] };
      s.sched = [] ∧ (∃ rest, s.script = .run :: rest) ∧ s.enc.inp = [] ∧ s.dec.inp = []) :=
  ⟨⟨rfl, rfl, by decide⟩, by decide, ⟨rfl, ⟨_, rfl⟩, rfl, by decide⟩, ⟨rfl, ⟨_, rfl⟩, rfl, rfl⟩⟩
theorem test_witness_EmptyInputWaits :
    ({ inputs [] [] with sched := [.enc] }.sched = .enc :: [] ∧ (inputs [] []).enc.inp = []) ∧
    ({ inputs [] [] with sched := [.dec] }.sched = .dec :: [] ∧ (inputs [] []).dec.inp = []) := by decide
/-- UnitsShareNoState: two states that agree on one unit only. -/
theorem test_witness_UnitsShareNoState :
    (let s := encSt 2#2 true 2#2 .std true 0#8 0#8;
      let u := { s with dec := (decSt 0#1 true 3#2 .url 1#6 2#6 3#6).dec, decCtrl := 1#1, reads := [(.cr0, 3)] };
      u.enc = s.enc ∧ u.encCtrl = s.encCtrl ∧ u ≠ s ∧ (∃ t, exec (.encInData 0#8) s = .next t)) ∧
    (let s := decSt 1#1 true 3#2 .std 0#6 0#6 0#6;
      let u := { s with enc := (encSt 0#2 true 1#2 .url true 1#8 2#8).enc, encCtrl := 1#2 };
      u.dec = s.dec ∧ u.decCtrl = s.decCtrl ∧ u ≠ s) :=
  ⟨⟨rfl, rfl, by decide, _, rfl⟩, rfl, rfl, by decide⟩
theorem test_witness_HostPutAppends :
    ((hostTurn (.put .enc 0x1FF#9)).sched = .host :: [] ∧
      (hostTurn (.put .enc 0x1FF#9)).script = .put .enc 0x1FF#9 :: []) ∧
    ((hostTurn (.put .dec 0x000#9)).sched = .host :: [] ∧
      (hostTurn (.put .dec 0x000#9)).script = .put .dec 0x000#9 :: []) := by decide
/-- HostCannotTouchRegisters: a taking host that is no writer and no putter, and a writing one. -/
theorem test_witness_HostCannotTouchRegisters :
    (let s := { midway with sched := [.host], script := [.take .dec] };
      s.sched = .host :: [] ∧ s.script = .take .dec :: [] ∧ ∃ t, step s = .next t) ∧
    ((hostTurn (.write .cr0 1)).sched = .host :: [] ∧ ∃ t, step (hostTurn (.write .cr0 1)) = .next t) ∧
    HostAct.take .dec ≠ .reset ∧ (∀ u, HostAct.take .dec ≠ .resetUnit u) ∧ (∀ w, HostAct.take .dec ≠ .op w) ∧
    (∀ n, HostAct.take .dec ≠ .write .cr0 n) ∧ (∀ w, HostAct.take .dec ≠ .put .enc w) :=
  ⟨⟨rfl, rfl, _, rfl⟩, ⟨rfl, _, rfl⟩, by simp, by simp, by simp, by simp, by simp⟩
/-- UnitConsumesOneItemPerStep: as many turns as items. -/
theorem test_witness_UnitConsumesOneItemPerStep :
    (let s := { inputs [0x04D#9, 0x100#9] [] with sched := [.enc, .enc, .host] };
      s.enc.cnt ≠ 3#2 ∧ 2 ≤ s.enc.inp.length ∧ s.sched = List.replicate 2 .enc ++ [.host]) ∧
    (let s := { inputs [] [0x054#9] with sched := [.dec] };
      1 ≤ s.dec.inp.length ∧ s.sched = List.replicate 1 .dec ++ []) := by decide

end Sys2Proof.Tests
end

section
/-! SUPPORT. Rules about the state and the step that the statements on invariants and noninterference share: what the
invariant depends on, what a fetch leaves, what a step that answers a next state has done, and the locality of a unit's
turn. -/

namespace Sys2Proof.Machine

/-! ### The items' rows are the units' steps -/

theorem exec_encInData (b : Byte) (s : State) : exec (.encInData b) s = encItem (inData b) s := by
  simp [exec, encItem]

theorem exec_encInEnd (d : Byte) (s : State) : exec (.encInEnd d) s = encItem (inEnd d) s := by
  simp [exec, encItem]

theorem exec_decInChar (c : Byte) (s : State) : exec (.decInChar c) s = decItem (inData c) s := by
  simp [exec, decItem]

theorem exec_decInEnd (d : Byte) (s : State) : exec (.decInEnd d) s = decItem (inEnd d) s := by
  simp [exec, decItem]

/-- The rows of an encoder input item are the encoder's steps. -/
theorem exec_encIn_eq_encItem {b : Byte} {i : Instr} (hi : i ∈ [Instr.encInData b, .encInEnd b]) :
    ∃ w, ∀ s, exec i s = encItem w s := by
  obtain rfl | rfl : i = .encInData b ∨ i = .encInEnd b := by simpa using hi
  · exact ⟨_, exec_encInData b⟩
  · exact ⟨_, exec_encInEnd b⟩

/-- The rows of a decoder input item are the decoder's steps. -/
theorem exec_decIn_eq_decItem {b : Byte} {i : Instr} (hi : i ∈ [Instr.decInChar b, .decInEnd b]) :
    ∃ w, ∀ s, exec i s = decItem w s := by
  obtain rfl | rfl : i = .decInChar b ∨ i = .decInEnd b := by simpa using hi
  · exact ⟨_, exec_decInChar b⟩
  · exact ⟨_, exec_decInEnd b⟩

/-- The row of an output item only changes what the consumer has received (R205). -/
theorem exec_outItem {p : Port} {w : Nat} {i : Instr} (hp : p = .encOut ∨ p = .decOut) (hi : decode p w = .ok i)
    (s : State) : ∃ c, exec i s = .next (s.setRx c) := by
  obtain rfl | rfl := hp
  · simp only [decode, decodeEncOut] at hi
    split_ifs at hi <;> cases hi <;> exact ⟨_, rfl⟩
  · simp only [decode, decodeDecOut] at hi
    split_ifs at hi <;> cases hi <;> exact ⟨_, rfl⟩

/-! ### The end of a message -/

@[simp] theorem encLatch_cnt (s : State) : (encLatch s).cnt = s.enc.cnt := by rw [encLatch_eq]

/-- The encoder's END emits items and leaves the unit idle (R145 to R147). -/
theorem execEncInEnd_next {d : Byte} {s t : State} (h : execEncInEnd d s = .next t) :
    ∃ ws, t = s.setEnc ((encLatch s).emit ws).idle := by
  simp only [execEncInEnd] at h
  split_ifs at h <;> cases h <;> exact ⟨_, rfl⟩

/-- The decoder's END emits items and leaves the unit idle, failed or not (R177 to R180). -/
theorem decFinish_eq_idle (d : DecUnit) : ∃ ws, decFinish d = (d.emit ws).idle := by
  simp only [decFinish, raiseMalformed]
  split_ifs <;> exact ⟨_, rfl⟩

/-! ### What the invariant depends on -/

/-- The invariant speaks of the two units only. -/
theorem Inv.of_units_eq {s t : State} (h : Inv s) (he : t.enc = s.enc) (hd : t.dec = s.dec) : Inv t := by
  obtain ⟨h1, h2, h3, h4, h5⟩ := h
  exact ⟨he ▸ h1, he ▸ h2, hd ▸ h3, he ▸ h4, hd ▸ h5⟩

/-- A new encoder that meets its part of the invariant. -/
theorem Inv.setEnc {s : State} {e : EncUnit} (h : Inv s) (cnt : e.cnt ≠ 3#2) (idle : e.busy = false → e.cnt = 0#2)
    (out : ∀ w ∈ e.out, encOutOk w) : Inv (s.setEnc e) :=
  ⟨cnt, idle, h.decIdle, out, h.decOut⟩

/-- A new decoder that meets its part of the invariant. -/
theorem Inv.setDec {s : State} {d : DecUnit} (h : Inv s) (idle : d.busy = false → d.cnt = 0#2)
    (out : ∀ w ∈ d.out, decOutOk w) : Inv (s.setDec d) :=
  ⟨h.encCnt, h.encIdle, idle, h.encOut, out⟩

/-- What the encoder's input stream holds does not matter. -/
theorem Inv.setEnc_inp {s : State} (h : Inv s) (l : List InItem) : Inv (s.setEnc { s.enc with inp := l }) :=
  h.setEnc h.encCnt h.encIdle h.encOut

/-- What the decoder's input stream holds does not matter. -/
theorem Inv.setDec_inp {s : State} (h : Inv s) (l : List InItem) : Inv (s.setDec { s.dec with inp := l }) :=
  h.setDec h.decIdle h.decOut

/-- An encoder that has appended producible items to its output stream. -/
theorem Inv.setEnc_append {s : State} {e : EncUnit} {new : List OutItem} (h : Inv s) (cnt : e.cnt ≠ 3#2)
    (idle : e.busy = false → e.cnt = 0#2) (taken : e.outTaken = s.enc.outTaken)
    (wait : e.outWait = s.enc.outWait ++ new) (ok : ∀ w ∈ new, encOutOk w) : Inv (s.setEnc e) := by
  have hout : e.out = s.enc.out ++ new := by simp [EncUnit.out, taken, wait]
  refine h.setEnc cnt idle fun w hw => ?_
  rw [hout, List.mem_append] at hw
  exact hw.elim (h.encOut w) (ok w)

/-- A decoder that has appended producible items to its output stream. -/
theorem Inv.setDec_append {s : State} {d : DecUnit} {new : List OutItem} (h : Inv s)
    (idle : d.busy = false → d.cnt = 0#2) (taken : d.outTaken = s.dec.outTaken)
    (wait : d.outWait = s.dec.outWait ++ new) (ok : ∀ w ∈ new, decOutOk w) : Inv (s.setDec d) := by
  have hout : d.out = s.dec.out ++ new := by simp [DecUnit.out, taken, wait]
  refine h.setDec idle fun w hw => ?_
  rw [hout, List.mem_append] at hw
  exact hw.elim (h.decOut w) (ok w)

/-! ### The meanings keep the invariant -/

theorem inv_encItem {w : InItem} {s t : State} (h : Inv s) (ht : encItem w s = .next t) : Inv t := by
  obtain ⟨e, new, he, -, taken, cnt, idle, wait, ok⟩ := encItem_next w s h.encCnt
  cases he.symm.trans ht
  exact h.setEnc_append cnt idle taken wait ok

theorem inv_decItem {w : InItem} {s t : State} (h : Inv s) (ht : decItem w s = .next t) : Inv t := by
  obtain ⟨d, new, hd, -, taken, idle, wait, ok⟩ := decItem_next w s
  cases hd.symm.trans ht
  exact h.setDec_append idle taken wait ok

theorem inv_encOperation {n : BitVec 2} {s t : State} (h : Inv s) (ht : encOperation n s = .next t) : Inv t := by
  have hs : Inv (s.setEncCtrl n) := h.of_units_eq rfl rfl
  obtain ⟨e, new, he, -, taken, cnt, idle, wait, ok⟩ := encMessage_next s.enc.inp (s.setEncCtrl n) rfl hs.encCnt
  cases he.symm.trans ht
  exact hs.setEnc_append cnt (idle hs.encIdle) taken wait ok

theorem inv_decOperation {n : BitVec 1} {s t : State} (h : Inv s) (ht : decOperation n s = .next t) : Inv t := by
  have hs : Inv (s.setDecCtrl n) := h.of_units_eq rfl rfl
  obtain ⟨d, new, hd, -, taken, idle, wait, ok⟩ := decMessage_next s.dec.inp (s.setDecCtrl n) rfl
  cases hd.symm.trans ht
  exact hs.setDec_append (idle hs.decIdle) taken wait ok

/-- Every word of the table keeps the invariant. -/
theorem inv_exec {i : Instr} {s t : State} (h : Inv s) (ht : exec i s = .next t) : Inv t := by
  cases i with
  | encStdNopad | encUrlNopad | encStdPad | encUrlPad => exact inv_encOperation h ht
  | decStd | decUrl => exact inv_decOperation h ht
  | encInData b => exact inv_encItem h (exec_encInData b s ▸ ht)
  | encInEnd d => exact inv_encItem h (exec_encInEnd d s ▸ ht)
  | decInChar c => exact inv_decItem h (exec_decInChar c s ▸ ht)
  | decInEnd d => exact inv_decItem h (exec_decInEnd d s ▸ ht)
  | encOutChar | encOutEnd0 | decOutByte | decOutEnd0 | decOutEnd1 | encCtrl | decCtrl =>
    cases ht
    exact h.of_units_eq rfl rfl

theorem inv_resetEnc {s : State} (h : Inv s) : Inv (resetEnc s) :=
  (h.setEnc (e := EncUnit.reset) (by decide) (fun _ => rfl) (by simp [EncUnit.out, EncUnit.reset])).of_units_eq rfl rfl

theorem inv_resetDec {s : State} (h : Inv s) : Inv (resetDec s) :=
  (h.setDec (d := DecUnit.reset) (fun _ => rfl) (by simp [DecUnit.out, DecUnit.reset])).of_units_eq rfl rfl

/-- Every action of the host that carries no word keeps the invariant. -/
theorem inv_hostAct {s : State} (h : Inv s) (a : HostAct) : Inv (hostAct a s) := by
  cases a with
  | reset => exact inv_resetDec (inv_resetEnc h)
  | resetUnit u =>
    cases u with
    | enc => exact inv_resetEnc h
    | dec => exact inv_resetDec h
  | read cr => exact h.of_units_eq rfl rfl
  | put u w =>
    cases u with
    | enc => exact h.setEnc_inp _
    | dec => exact h.setDec_inp _
  | write | take | op | run => exact h

/-! ### What a fetch leaves -/

/-- The state a fetch leaves to its step. -/
def Fetched.state : Fetched → State
  | .wait s => s
  | .act _ s => s
  | .word _ _ s => s

theorem inv_fetchEnc {s : State} (h : Inv s) : Inv (fetchEnc s).state := by
  unfold fetchEnc
  split
  · exact h
  · exact h.setEnc_inp _

theorem inv_fetchDec {s : State} (h : Inv s) : Inv (fetchDec s).state := by
  unfold fetchDec
  split
  · exact h
  · exact h.setDec_inp _

/-- A take moves at most one item from the waiting ones to the taken ones, so what the streams have carried stays the
same, and so does everything else (R37, R54). -/
theorem fetchOut_state (u : UnitId) (s : State) :
    ∃ et ew dt dw, et ++ ew = s.enc.out ∧ dt ++ dw = s.dec.out ∧
      (fetchOut u s).state = { s with
        enc := { s.enc with outTaken := et, outWait := ew }, dec := { s.dec with outTaken := dt, outWait := dw } } := by
  cases u with
  | enc =>
    simp only [fetchOut]
    split
    · exact ⟨_, _, _, _, rfl, rfl, rfl⟩
    next w rest hw => exact ⟨s.enc.outTaken ++ [w], rest, _, _, by simp [EncUnit.out, hw], rfl, rfl⟩
  | dec =>
    simp only [fetchOut]
    split
    · exact ⟨_, _, _, _, rfl, rfl, rfl⟩
    next w rest hw => exact ⟨_, _, s.dec.outTaken ++ [w], rest, rfl, by simp [DecUnit.out, hw], rfl⟩

theorem inv_fetchOut {s : State} (h : Inv s) (u : UnitId) : Inv (fetchOut u s).state := by
  obtain ⟨et, ew, dt, dw, he, hd, hs⟩ := fetchOut_state u s
  rw [hs]
  exact ⟨h.encCnt, h.encIdle, h.decIdle, (he ▸ h.encOut :), (hd ▸ h.decOut :)⟩

theorem inv_fetchHost {s : State} (h : Inv s) : Inv (fetchHost s).state := by
  have hs (l) : Inv (s.setScript l) := h.of_units_eq rfl rfl
  unfold fetchHost
  split
  · exact h
  next a rest _ =>
    cases a with
    | take u => exact inv_fetchOut (hs rest) u
    | write cr n => cases cr <;> exact hs rest
    | run =>
      dsimp only
      split
      · exact hs rest
      · exact h
    | op | reset | resetUnit | read | put => exact hs rest

/-- Finding what the next agent has to do keeps the invariant. -/
theorem inv_fetch {s : State} (h : Inv s) : Inv (fetch s).state := by
  have hs : Inv (s.setSched s.sched.tail) := h.of_units_eq rfl rfl
  unfold fetch
  cases nextAgent s with
  | host => exact inv_fetchHost hs
  | enc => exact inv_fetchEnc hs
  | dec => exact inv_fetchDec hs

/-! ### What a step has done -/

/-- A step that answers a next state waited, performed a host action or ran a decoded word. -/
theorem step_next_cases {s t : State} (h : step s = .next t) :
    fetch s = .wait t ∨ (∃ a u, fetch s = .act a u ∧ t = hostAct a u) ∨
      ∃ p w u i, fetch s = .word p w u ∧ decode p w = .ok i ∧ exec i u = .next t := by
  unfold step at h
  split at h
  next u hf =>
    cases h
    exact .inl hf
  next a u hf =>
    cases h
    exact .inr (.inl ⟨a, u, hf, rfl⟩)
  next p w u hf =>
    split at h
    next i hi => exact .inr (.inr ⟨p, w, u, i, hf, hi, h⟩)
    next => cases h

theorem steps_two_of_next {s t : State} (h : step s = .next t) : steps 2 s = step t := by
  simp only [steps, h]
  cases step t <;> rfl

theorem steps_two_of_fault {s : State} {r : Fault} (h : step s = .fault r) : steps 2 s = .fault r := by
  simp only [steps, h]

/-- On the host's turn the fetch is the host's. -/
theorem fetch_host {s : State} {sched : List Agent} (h : s.sched = .host :: sched) :
    fetch s = fetchHost (s.setSched sched) := by
  simp [fetch, nextAgent, h]

/-! ### A unit's turn is local -/

/-- The encoder's step on an item is one function of the encoder and ENC_CTRL in every surrounding (R68). -/
theorem encItem_uniform (w : InItem) (s : State) :
    (∃ e, ∀ u : State, u.enc = s.enc → u.encCtrl = s.encCtrl → encItem w u = .next (u.setEnc e)) ∨
      ∀ u : State, u.enc = s.enc → u.encCtrl = s.encCtrl → encItem w u = .fault .encCntThree := by
  obtain ⟨e, hs, -⟩ | ⟨hs, -⟩ := encItem_local w s s rfl rfl
  · refine .inl ⟨e, fun u h1 h2 => ?_⟩
    obtain ⟨e', hs', hu⟩ | ⟨hs', -⟩ := encItem_local w s u h1 h2
    · have he : e = e' := congrArg State.enc (Host.Outcome.next.inj (hs.symm.trans hs'))
      rw [hu, he]
    · cases hs.symm.trans hs'
  · refine .inr fun u h1 h2 => ?_
    obtain ⟨e', hs', -⟩ | ⟨-, hu⟩ := encItem_local w s u h1 h2
    · cases hs.symm.trans hs'
    · exact hu

/-- The decoder's step on an item is one function of the decoder and DEC_CTRL in every surrounding (R68). -/
theorem decItem_uniform (w : InItem) (s : State) :
    ∃ d, ∀ u : State, u.dec = s.dec → u.decCtrl = s.decCtrl → decItem w u = .next (u.setDec d) := by
  obtain ⟨d, hs, -⟩ := decItem_local w s s rfl rfl
  refine ⟨d, fun u h1 h2 => ?_⟩
  obtain ⟨d', hs', hu⟩ := decItem_local w s u h1 h2
  have hd : d = d' := congrArg State.dec (Host.Outcome.next.inj (hs.symm.trans hs'))
  rw [hu, hd]

/-- With an empty input stream the encoder's turn is used up (R56). -/
theorem step_enc_wait {s : State} {sched : List Agent} (h1 : s.sched = .enc :: sched) (h2 : s.enc.inp = []) :
    step s = .next (s.setSched sched) := by
  simp [step, fetch, nextAgent, h1, fetchEnc, h2]

/-- With an empty input stream the decoder's turn is used up (R56). -/
theorem step_dec_wait {s : State} {sched : List Agent} (h1 : s.sched = .dec :: sched) (h2 : s.dec.inp = []) :
    step s = .next (s.setSched sched) := by
  simp [step, fetch, nextAgent, h1, fetchDec, h2]

/-- The encoder's turn, waiting or not, is one function of the encoder and ENC_CTRL in every surrounding (R68). -/
theorem encTurn_uniform (s : State) :
    (∃ e, ∀ (u : State) (l : List Agent), u.enc = s.enc → u.encCtrl = s.encCtrl → u.sched = .enc :: l →
      step u = .next ((u.setSched l).setEnc e)) ∨
    ∀ (u : State) (l : List Agent), u.enc = s.enc → u.encCtrl = s.encCtrl → u.sched = .enc :: l →
      step u = .fault .encCntThree := by
  cases hin : s.enc.inp with
  | nil =>
    refine .inl ⟨s.enc, fun u l h1 h2 h3 => ?_⟩
    rw [step_enc_wait h3 (h1 ▸ hin), ← h1]
    rfl
  | cons w rest =>
    refine (encItem_uniform w (s.setEnc { s.enc with inp := rest })).imp ?_ ?_
    · rintro ⟨e, he⟩
      refine ⟨e, fun u l h1 h2 h3 => ?_⟩
      rw [step_enc_item h3 (h1 ▸ hin), he _ (by simp [h1]) (by simpa using h2)]
      rfl
    · intro hf u l h1 h2 h3
      rw [step_enc_item h3 (h1 ▸ hin), hf _ (by simp [h1]) (by simpa using h2)]

/-- The decoder's turn, waiting or not, is one function of the decoder and DEC_CTRL in every surrounding (R68). -/
theorem decTurn_uniform (s : State) :
    ∃ d, ∀ (u : State) (l : List Agent), u.dec = s.dec → u.decCtrl = s.decCtrl → u.sched = .dec :: l →
      step u = .next ((u.setSched l).setDec d) := by
  cases hin : s.dec.inp with
  | nil =>
    refine ⟨s.dec, fun u l h1 h2 h3 => ?_⟩
    rw [step_dec_wait h3 (h1 ▸ hin), ← h1]
    rfl
  | cons w rest =>
    obtain ⟨d, hd⟩ := decItem_uniform w (s.setDec { s.dec with inp := rest })
    refine ⟨d, fun u l h1 h2 h3 => ?_⟩
    rw [step_dec_item h3 (h1 ▸ hin), hd _ (by simp [h1]) (by simpa using h2)]
    rfl

/-! ### The host's turn -/

/-- A host that takes finds nothing to do or the word of an output port. -/
theorem fetchOut_cases (u : UnitId) (s : State) :
    fetchOut u s = .wait s ∨ ∃ p w v, (p = .encOut ∨ p = .decOut) ∧ fetchOut u s = .word p w v := by
  cases u with
  | enc =>
    simp only [fetchOut]
    split
    · exact .inl rfl
    · exact .inr ⟨_, _, _, .inl rfl, rfl⟩
  | dec =>
    simp only [fetchOut]
    split
    · exact .inl rfl
    · exact .inr ⟨_, _, _, .inr rfl, rfl⟩

/-- A step in which the host takes leaves what the fetch left, but for what the consumer has received (R54, R205). -/
theorem step_take_next {s t : State} {u : UnitId} {script : List HostAct} {sched : List Agent}
    (h1 : s.sched = .host :: sched) (h2 : s.script = .take u :: script) (ht : step s = .next t) :
    ∃ c, t = (fetchOut u ((s.setSched sched).setScript script)).state.setRx c := by
  have hf : fetch s = fetchOut u ((s.setSched sched).setScript script) := by simp [fetch_host h1, fetchHost, h2]
  obtain hw | ⟨p, w, v, hp, hw⟩ := fetchOut_cases u ((s.setSched sched).setScript script)
  · simp only [step, hf, hw] at ht
    cases ht
    exact ⟨s.rx, by rw [hw]; rfl⟩
  · simp only [step, hf, hw] at ht
    split at ht
    next i hi =>
      obtain ⟨c, hc⟩ := exec_outItem hp hi v
      cases hc.symm.trans ht
      exact ⟨c, by rw [hw]; rfl⟩
    next => cases ht

end Sys2Proof.Machine
end

section
/-! PROOFS. The statements on reset, idleness, the invariant and noninterference. -/

namespace Sys2Proof.Proofs

open Sys2Proof Sys2Proof.Machine

/-- Settles O50: the fetch keeps the invariant, and so does whatever the step then does with it. -/
theorem stepKeepsInvariant : Obligations.StepKeepsInvariant := by
  intro s t h ht
  have hf := inv_fetch h
  obtain hw | ⟨a, u, ha, rfl⟩ | ⟨p, w, u, i, hw, -, hi⟩ := step_next_cases ht
  · exact (hw ▸ hf :)
  · exact inv_hostAct (ha ▸ hf :) a
  · exact inv_exec (hw ▸ hf :) hi

/-- Settles O33: END ends in `idle` on every path that answers a next state. -/
theorem endLeavesUnitIdle : Obligations.EndLeavesUnitIdle := by
  refine fun s t d => ⟨fun h => ?_, fun h => ?_⟩
  · obtain ⟨ws, rfl⟩ := execEncInEnd_next (d := d) h
    simp
  · obtain ⟨ws, hws⟩ := decFinish_eq_idle (decLatch s)
    cases h
    simp [hws]

/-- Settles O55: each unit's turn is the same function of its own unit before and after the other's, so both orders
give both results, or both stop at the encoder's fault. -/
theorem unitStepsCommute : Obligations.UnitStepsCommute := by
  intro s sched
  obtain ⟨d, hd⟩ := decTurn_uniform s
  obtain ⟨e, he⟩ | hf := encTurn_uniform s
  · have hed := calc
      steps 2 { s with sched := .enc :: .dec :: sched } = step ((s.setSched (.dec :: sched)).setEnc e) :=
        steps_two_of_next (he _ _ rfl rfl rfl)
      _ = .next (((s.setSched sched).setEnc e).setDec d) := hd _ _ rfl rfl rfl
    have hde := calc
      steps 2 { s with sched := .dec :: .enc :: sched } = step ((s.setSched (.enc :: sched)).setDec d) :=
        steps_two_of_next (hd _ _ rfl rfl rfl)
      _ = .next (((s.setSched sched).setEnc e).setDec d) := he _ _ rfl rfl rfl
    exact hed.trans hde.symm
  · have hed : steps 2 { s with sched := .enc :: .dec :: sched } = .fault .encCntThree :=
      steps_two_of_fault (hf _ _ rfl rfl rfl)
    have hde := calc
      steps 2 { s with sched := .dec :: .enc :: sched } = step ((s.setSched (.enc :: sched)).setDec d) :=
        steps_two_of_next (hd _ _ rfl rfl rfl)
      _ = .fault .encCntThree := hf _ _ rfl rfl rfl
    exact hed.trans hde.symm

/-- Settles O56, by the locality of each unit's step. -/
theorem unitsShareNoState : Obligations.UnitsShareNoState := by
  refine fun s u b => ⟨fun h1 h2 i hi t ht => ?_, fun h1 h2 i hi => ?_⟩
  · obtain ⟨w, hw⟩ := exec_encIn_eq_encItem hi
    rw [hw] at ht
    obtain ⟨e, hs, hu⟩ | ⟨hs, -⟩ := encItem_local w s u h1 h2
    · cases hs.symm.trans ht
      exact ⟨rfl, (hw u).trans hu⟩
    · cases hs.symm.trans ht
  · obtain ⟨w, hw⟩ := exec_decIn_eq_decItem hi
    obtain ⟨d, hs, hu⟩ := decItem_local w s u h1 h2
    exact ⟨_, (hw s).trans hs, rfl, (hw u).trans hu⟩

/-- Settles O58, action by action: each of the five that are left changes one thing, and none of them a register. -/
theorem hostCannotTouchRegisters : Obligations.HostCannotTouchRegisters := by
  intro s t a script sched h1 h2 hreset hunit hop ht
  cases a with
  | reset => exact absurd rfl hreset
  | resetUnit u => exact absurd rfl (hunit u)
  | op w => exact absurd rfl (hop w)
  | write cr n =>
    cases cr <;>
    · simp only [step, fetch_host h1, fetchHost, State.setSched_script, h2] at ht
      cases ht
      simp
  | read cr =>
    simp only [step, fetch_host h1, fetchHost, State.setSched_script, h2] at ht
    cases ht
    simp [hostAct, readAct]
  | put u w =>
    simp only [step, fetch_host h1, fetchHost, State.setSched_script, h2] at ht
    cases ht
    cases u <;> simp [hostAct, putItem, EncUnit.out, DecUnit.out]
  | take u =>
    obtain ⟨c, rfl⟩ := step_take_next h1 h2 ht
    obtain ⟨et, ew, dt, dw, he, hd, hs⟩ := fetchOut_state u ((s.setSched sched).setScript script)
    simpa [hs, EncUnit.out, DecUnit.out] using ⟨he, hd⟩
  | run =>
    simp only [step, fetch_host h1, fetchHost, State.setSched_script, h2] at ht
    split_ifs at ht <;> cases ht <;> simp

/-- Settles O9. -/
theorem resetLeavesSpecValues : Obligations.ResetLeavesSpecValues :=
  ⟨rfl, rfl, rfl, rfl, rfl, rfl, rfl, rfl, rfl, rfl⟩

/-- Settles O21: the message start keeps `cnt`, and no branch of either step is for `cnt = 3`. -/
theorem encStopsAtUnreachableCnt : Obligations.EncStopsAtUnreachableCnt := by
  intro s b h
  constructor
  · simp [exec, execEncInData, h]
  · simp [exec, execEncInEnd, h]

/-- Settles O49. -/
theorem invariantAtReset : Obligations.InvariantAtReset where
  encCnt := by decide
  encIdle _ := rfl
  decIdle _ := rfl
  encOut := by simp [State.reset, EncUnit.reset, EncUnit.out]
  decOut := by simp [State.reset, DecUnit.reset, DecUnit.out]

end Sys2Proof.Proofs
end

section
/-! SUPPORT. Whole runs of the step: how steps compose, what each port's turn fetches, and progress of the
units. -/

namespace Sys2Proof.Machine

/-! ### Composing steps -/

theorem steps_succ_of_next {s t : State} (h : step s = .next t) (n : Nat) : steps (n + 1) s = steps n t := by
  simp only [steps, h]

theorem steps_add_of_next {m : Nat} {s t : State} (h : steps m s = .next t) (n : Nat) :
    steps (m + n) s = steps n t := by
  induction m generalizing s with
  | zero =>
    cases h
    rw [Nat.zero_add]
  | succ m ih =>
    cases hs : step s with
    | next u =>
      rw [steps_succ_of_next hs] at h
      rw [Nat.add_right_comm, steps_succ_of_next hs]
      exact ih h
    | fault r => simp [steps, hs] at h
    | refused r => simp [steps, hs] at h

/-! ### What a turn fetches -/

/-- A step that fetches a word of the table runs it. -/
theorem step_of_word {s t : State} {p : Port} {w : Nat} {i : Instr} (hf : fetch s = .word p w t)
    (hi : decode p w = .ok i) : step s = exec i t := by
  simp only [step, hf, hi]

/-- A step that fetches a host action without a word performs it. -/
theorem step_of_act {s t : State} {a : HostAct} (hf : fetch s = .act a t) : step s = .next (hostAct a t) := by
  simp only [step, hf]

/-- On the encoder's turn the word is the front item of ENC.In (R56). -/
theorem fetch_enc_item {s : State} {sched : List Agent} {w : InItem} {rest : List InItem}
    (h1 : s.sched = .enc :: sched) (h2 : s.enc.inp = w :: rest) :
    fetch s = .word .encIn w.toNat ((s.setSched sched).setEnc { s.enc with inp := rest }) := by
  simp [fetch, nextAgent, h1, fetchEnc, h2]

/-- On the decoder's turn the word is the front item of DEC.In (R56). -/
theorem fetch_dec_item {s : State} {sched : List Agent} {w : InItem} {rest : List InItem}
    (h1 : s.sched = .dec :: sched) (h2 : s.dec.inp = w :: rest) :
    fetch s = .word .decIn w.toNat ((s.setSched sched).setDec { s.dec with inp := rest }) := by
  simp [fetch, nextAgent, h1, fetchDec, h2]

section HostTurn
variable {s : State} {sched : List Agent} {script : List HostAct}

/-- The word of an operation line is the OP word (R80, R100). -/
theorem fetch_op {w : Nat} (h1 : s.sched = .host :: sched) (h2 : s.script = .op w :: script) :
    fetch s = .word .op w ((s.setSched sched).setScript script) := by
  simp [fetch_host h1, fetchHost, h2]

/-- The word of a write line for CR0 is the value written (R82, R100). -/
theorem fetch_write_cr0 {n : Nat} (h1 : s.sched = .host :: sched) (h2 : s.script = .write .cr0 n :: script) :
    fetch s = .word .cr0 n ((s.setSched sched).setScript script) := by
  simp [fetch_host h1, fetchHost, h2]

/-- The word of a write line for CR1 is the value written (R83, R100). -/
theorem fetch_write_cr1 {n : Nat} (h1 : s.sched = .host :: sched) (h2 : s.script = .write .cr1 n :: script) :
    fetch s = .word .cr1 n ((s.setSched sched).setScript script) := by
  simp [fetch_host h1, fetchHost, h2]

/-- The word of a take line for the encoder is the front item of ENC.Out, which moves to the items taken (R54). -/
theorem fetch_take_enc {w : OutItem} {rest : List OutItem} (h1 : s.sched = .host :: sched)
    (h2 : s.script = .take .enc :: script) (h3 : s.enc.outWait = w :: rest) :
    fetch s = .word .encOut w.toNat (((s.setSched sched).setScript script).setEnc
      { s.enc with outTaken := s.enc.outTaken ++ [w], outWait := rest }) := by
  simp [fetch_host h1, fetchHost, h2, fetchOut, h3]

/-- The word of a take line for the decoder is the front item of DEC.Out, which moves to the items taken (R54). -/
theorem fetch_take_dec {w : OutItem} {rest : List OutItem} (h1 : s.sched = .host :: sched)
    (h2 : s.script = .take .dec :: script) (h3 : s.dec.outWait = w :: rest) :
    fetch s = .word .decOut w.toNat (((s.setSched sched).setScript script).setDec
      { s.dec with outTaken := s.dec.outTaken ++ [w], outWait := rest }) := by
  simp [fetch_host h1, fetchHost, h2, fetchOut, h3]

/-- A put is performed with its line and the turn used up (R54, R100). -/
theorem step_put {u : UnitId} {w : InItem} (h1 : s.sched = .host :: sched) (h2 : s.script = .put u w :: script) :
    step s = .next (putItem u w ((s.setSched sched).setScript script)) :=
  step_of_act (a := .put u w) (by simp [fetch_host h1, fetchHost, h2])

/-- A take from ENC.Out runs the row of the item it takes (R54, R205). -/
theorem step_take_enc {w : OutItem} {rest : List OutItem} {i : Instr} (h1 : s.sched = .host :: sched)
    (h2 : s.script = .take .enc :: script) (h3 : s.enc.outWait = w :: rest) (hi : decode .encOut w.toNat = .ok i) :
    step s = exec i { s with
      sched := sched, script := script, enc := { s.enc with outTaken := s.enc.outTaken ++ [w], outWait := rest } } :=
  step_of_word (fetch_take_enc h1 h2 h3) hi

/-- A take from DEC.Out runs the row of the item it takes (R54, R205). -/
theorem step_take_dec {w : OutItem} {rest : List OutItem} {i : Instr} (h1 : s.sched = .host :: sched)
    (h2 : s.script = .take .dec :: script) (h3 : s.dec.outWait = w :: rest) (hi : decode .decOut w.toNat = .ok i) :
    step s = exec i { s with
      sched := sched, script := script, dec := { s.dec with outTaken := s.dec.outTaken ++ [w], outWait := rest } } :=
  step_of_word (fetch_take_dec h1 h2 h3) hi

end HostTurn

/-! ### Runs of a unit's turns -/

/-- Progress of the encoder (R56, R242): each of its turns takes one item while items wait. -/
theorem steps_enc_turns {n : Nat} {s : State} {sched : List Agent} (hcnt : s.enc.cnt ≠ 3#2)
    (hn : n ≤ s.enc.inp.length) (hs : s.sched = List.replicate n .enc ++ sched) :
    ∃ t, steps n s = .next t ∧ t.enc.inp = s.enc.inp.drop n ∧ t.sched = sched := by
  induction n generalizing s with
  | zero => exact ⟨s, rfl, rfl, hs⟩
  | succ n ih =>
    cases hin : s.enc.inp with
    | nil => simp [hin] at hn
    | cons w rest =>
      obtain ⟨e, -, he, inp, -, cnt, -⟩ :=
        encItem_next w ((s.setSched (List.replicate n .enc ++ sched)).setEnc { s.enc with inp := rest }) hcnt
      obtain ⟨t, ht, hdrop, hsched⟩ := ih (s := (s.setSched (List.replicate n .enc ++ sched)).setEnc e) cnt
        (by simpa [inp, hin] using hn) rfl
      refine ⟨t, (steps_succ_of_next ((step_enc_item hs hin).trans he) n).trans ht, ?_, hsched⟩
      simpa [inp] using hdrop

/-- Progress of the decoder (R56, R242): each of its turns takes one item while items wait. -/
theorem steps_dec_turns {n : Nat} {s : State} {sched : List Agent}
    (hn : n ≤ s.dec.inp.length) (hs : s.sched = List.replicate n .dec ++ sched) :
    ∃ t, steps n s = .next t ∧ t.dec.inp = s.dec.inp.drop n ∧ t.sched = sched := by
  induction n generalizing s with
  | zero => exact ⟨s, rfl, rfl, hs⟩
  | succ n ih =>
    cases hin : s.dec.inp with
    | nil => simp [hin] at hn
    | cons w rest =>
      obtain ⟨d, -, hd, inp, -⟩ :=
        decItem_next w ((s.setSched (List.replicate n .dec ++ sched)).setDec { s.dec with inp := rest })
      obtain ⟨t, ht, hdrop, hsched⟩ := ih (s := (s.setSched (List.replicate n .dec ++ sched)).setDec d)
        (by simpa [inp, hin] using hn) rfl
      refine ⟨t, (steps_succ_of_next ((step_dec_item hs hin).trans hd) n).trans ht, ?_, hsched⟩
      simpa [inp] using hdrop

end Sys2Proof.Machine
end

section
/-! SUPPORT. The units over a message. What an output stream will hold once the message in progress has ended is fixed
by the unit and the items still to come; no item before END changes it, and at END the stream holds it. -/

namespace Sys2Proof.Machine

/-! ### The encoder -/

/-- Replace the items waiting on ENC.In. -/
def EncUnit.setInp (e : EncUnit) (l : List InItem) : EncUnit := { e with inp := l }

@[simp] theorem EncUnit.setInp_inp (e : EncUnit) (l : List InItem) : (e.setInp l).inp = l := rfl
@[simp] theorem EncUnit.setInp_busy (e : EncUnit) (l : List InItem) : (e.setInp l).busy = e.busy := rfl
@[simp] theorem EncUnit.setInp_cnt (e : EncUnit) (l : List InItem) : (e.setInp l).cnt = e.cnt := rfl

/-- The bytes of the unfinished group (R24 to R26). -/
def EncUnit.held (e : EncUnit) : List Byte :=
  if e.cnt = 0#2 then [] else if e.cnt = 1#2 then [e.b1] else [e.b1, e.b2]

/-- A byte at the current `cnt`: R142 and R143 hold it, R144 emits the group it completes. -/
def EncUnit.takeByte (e : EncUnit) (b : Byte) : EncUnit :=
  if e.cnt = 0#2 then { e with b1 := b, cnt := 1#2 }
  else if e.cnt = 1#2 then { e with b2 := b, cnt := 2#2 }
  else { e.emit (group3Items e.cfgV e.b1 e.b2 b) with cnt := 0#2 }

/-- The end of an encoder message: the characters of the unfinished group, END(0), idle (R145 to R147). -/
def EncUnit.finish (e : EncUnit) : EncUnit :=
  (e.emit ((encodeMsg e.cfgV e.cfgP e.held).map outData ++ [0x200#10])).idle

/-- What waits on ENC.Out when the message in progress has ended after the further bytes `x`. -/
def EncUnit.due (e : EncUnit) (x : List Byte) : List OutItem :=
  e.outWait ++ (encodeMsg e.cfgV e.cfgP (e.held ++ x)).map outData ++ [0x200#10]

theorem encodeMsg_group3 (v : Variant) (p : Bool) (a b c : Byte) (x : List Byte) :
    (encodeMsg v p (a :: b :: c :: x)).map outData = group3Items v a b c ++ (encodeMsg v p x).map outData := by
  simp [encodeMsg, encGroups, encGroup, group3Items]

theorem encodeMsg_group2 (v : Variant) (p : Bool) (a b : Byte) :
    (encodeMsg v p [a, b]).map outData = group2Items v p a b := by
  cases p <;> simp [encodeMsg, encGroups, encGroup, group2Items]

theorem encodeMsg_group1 (v : Variant) (p : Bool) (a : Byte) :
    (encodeMsg v p [a]).map outData = group1Items v p a := by
  cases p <;> simp [encodeMsg, encGroups, encGroup, group1Items]

/-- The encoder's step on a DATA item (R141 to R144). -/
theorem encItem_data (b : Byte) {s : State} (h : s.enc.cnt ≠ 3#2) :
    encItem (inData b) s = .next (s.setEnc ((encLatch s).takeByte b)) := by
  obtain h0 | h0 | h0 | h0 := cnt_cases s.enc.cnt
  · simp [encItem, execEncInData, EncUnit.takeByte, h0]
  · simp [encItem, execEncInData, EncUnit.takeByte, h0]
  · simp [encItem, execEncInData, EncUnit.takeByte, h0]
  · exact absurd h0 h

/-- The encoder's step on an END item (R141, R145 to R147). -/
theorem encItem_end (d : Byte) {s : State} (h : s.enc.cnt ≠ 3#2) :
    encItem (inEnd d) s = .next (s.setEnc (encLatch s).finish) := by
  obtain h0 | h0 | h0 | h0 := cnt_cases s.enc.cnt
  · simp [encItem, execEncInEnd, EncUnit.finish, EncUnit.held, h0, encodeMsg, encGroups]
  · simp [encItem, execEncInEnd, EncUnit.finish, EncUnit.held, h0, encodeMsg_group1]
  · simp [encItem, execEncInEnd, EncUnit.finish, EncUnit.held, h0, encodeMsg_group2]
  · exact absurd h0 h

theorem EncUnit.takeByte_due (e : EncUnit) (b : Byte) (x : List Byte) (h : e.cnt ≠ 3#2) :
    (e.takeByte b).due x = e.due (b :: x) := by
  obtain h0 | h0 | h0 | h0 := cnt_cases e.cnt
  · simp [takeByte, due, held, h0]
  · simp [takeByte, due, held, h0]
  · simp [takeByte, due, held, h0, encodeMsg_group3]
  · exact absurd h0 h

theorem EncUnit.takeByte_cnt (e : EncUnit) (b : Byte) : (e.takeByte b).cnt ≠ 3#2 := by
  unfold takeByte
  split_ifs <;> simp

@[simp] theorem EncUnit.takeByte_busy (e : EncUnit) (b : Byte) : (e.takeByte b).busy = e.busy := by
  unfold takeByte
  split_ifs <;> rfl

theorem EncUnit.takeByte_setInp (e : EncUnit) (b : Byte) (l : List InItem) :
    (e.takeByte b).setInp l = (e.setInp l).takeByte b := by
  rw [takeByte, takeByte, setInp_cnt]
  split_ifs <;> rfl

@[simp] theorem EncUnit.takeByte_inp (e : EncUnit) (b : Byte) : (e.takeByte b).inp = e.inp := by
  unfold takeByte
  split_ifs <;> rfl

@[simp] theorem EncUnit.foldl_takeByte_inp (e : EncUnit) (x : List Byte) : (x.foldl takeByte e).inp = e.inp := by
  induction x generalizing e with
  | nil => rfl
  | cons b x ih => exact (ih _).trans (e.takeByte_inp b)

/-- The DATA items of a message change nothing about what is due. -/
theorem EncUnit.foldl_takeByte_due {e : EncUnit} (h : e.cnt ≠ 3#2) (x : List Byte) :
    (x.foldl takeByte e).due [] = e.due x := by
  induction x generalizing e with
  | nil => rfl
  | cons b x ih => exact (ih (takeByte_cnt e b)).trans (takeByte_due e b x h)

/-- At END the output stream holds what was due. -/
theorem EncUnit.finish_outWait (e : EncUnit) : e.finish.outWait = e.due [] := by
  simp [finish, due]

@[simp] theorem EncUnit.finish_inp (e : EncUnit) : e.finish.inp = e.inp := rfl
@[simp] theorem EncUnit.finish_busy (e : EncUnit) : e.finish.busy = false := rfl

@[simp] theorem encLatch_busy (s : State) : (encLatch s).busy = true := by rw [encLatch_eq]

/-- A busy encoder has nothing to latch (R141). -/
theorem encLatch_setEnc {e : EncUnit} (h : e.busy = true) (s : State) : encLatch (s.setEnc e) = e := by
  simp [encLatch, h]

theorem encLatch_take (s : State) (sched : List Agent) (rest : List InItem) :
    encLatch ((s.setSched sched).setEnc { s.enc with inp := rest }) = (encLatch s).setInp rest := by
  rw [encLatch_eq, encLatch_eq]
  rfl

/-- A whole message from an idle encoder: what waits, then `Encode` and END(0) (R148). -/
theorem encLatch_due_of_idle {s : State} (h : s.enc.cnt = 0#2) (x : List Byte) :
    (encLatch s).due x = s.enc.outWait ++ (encodeMsg (encVariant s) (encPad s) x).map outData ++ [0x200#10] := by
  simp [encLatch_eq, EncUnit.due, EncUnit.held, h]

/-- The encoder's turn on a DATA item (R56, R141 to R144). -/
theorem step_enc_data {s : State} {b : Byte} {rest : List InItem} {sched : List Agent} (hcnt : s.enc.cnt ≠ 3#2)
    (h1 : s.sched = .enc :: sched) (h2 : s.enc.inp = inData b :: rest) :
    step s = .next ((s.setSched sched).setEnc (((encLatch s).setInp rest).takeByte b)) := by
  rw [← encLatch_take s sched rest]
  exact (step_enc_item h1 h2).trans (encItem_data b hcnt)

/-- The encoder's turn on an END item (R56, R141, R145 to R147). -/
theorem step_enc_end {s : State} {d : Byte} {rest : List InItem} {sched : List Agent} (hcnt : s.enc.cnt ≠ 3#2)
    (h1 : s.sched = .enc :: sched) (h2 : s.enc.inp = inEnd d :: rest) :
    step s = .next ((s.setSched sched).setEnc ((encLatch s).setInp rest).finish) := by
  rw [← encLatch_take s sched rest]
  exact (step_enc_item h1 h2).trans (encItem_end d hcnt)

/-- The encoder's turns over the rest of a message, END included (R56, R148). -/
theorem steps_enc_message {s : State} {x : List Byte} {d : Byte} {rest : List InItem} {sched : List Agent}
    (hcnt : s.enc.cnt ≠ 3#2) (hs : s.sched = List.replicate (x.length + 1) .enc ++ sched)
    (hin : s.enc.inp = encMessageItems x d ++ rest) :
    steps (x.length + 1) s =
      .next ((s.setSched sched).setEnc (x.foldl EncUnit.takeByte ((encLatch s).setInp rest)).finish) := by
  induction x generalizing s with
  | nil => exact steps_succ_of_next (step_enc_end hcnt hs hin) 0
  | cons b x ih =>
    refine (steps_succ_of_next (step_enc_data hcnt hs hin) _).trans
      ((ih (EncUnit.takeByte_cnt _ b) rfl (EncUnit.takeByte_inp _ b)).trans ?_)
    rw [encLatch_setEnc (by simp), EncUnit.takeByte_setInp]
    rfl

/-! ### The decoder -/

/-- Replace the items waiting on DEC.In. -/
def DecUnit.setInp (d : DecUnit) (l : List InItem) : DecUnit := { d with inp := l }

@[simp] theorem DecUnit.setInp_inp (d : DecUnit) (l : List InItem) : (d.setInp l).inp = l := rfl
@[simp] theorem DecUnit.setInp_cfgV (d : DecUnit) (l : List InItem) : (d.setInp l).cfgV = d.cfgV := rfl
@[simp] theorem DecUnit.setInp_busy (d : DecUnit) (l : List InItem) : (d.setInp l).busy = d.busy := rfl
@[simp] theorem DecUnit.setInp_cnt (d : DecUnit) (l : List InItem) : (d.setInp l).cnt = d.cnt := rfl

/-- The symbols of the unfinished group (R30 to R33). -/
def DecUnit.held (d : DecUnit) : List Sym :=
  if d.cnt = 0#2 then [] else if d.cnt = 1#2 then [d.s1] else if d.cnt = 2#2 then [d.s1, d.s2] else [d.s1, d.s2, d.s3]

/-- The bytes of a sequence of symbols; a last symbol that stands alone gives none (R164 to R166, R91). -/
def symBytes (y : List Sym) : List Byte := (decGroups y).flatMap decGroup

/-- The `err` bit of END after a sequence of symbols (R163, R202). -/
def symErr (y : List Sym) : BitVec 1 := if y.length % 4 = 1 then Config.errMalformed else Config.errNone

/-- A character under the latched variant: a foreign one is dropped (R172), a symbol goes by R173 to R176. -/
def DecUnit.takeChar (d : DecUnit) (c : Byte) : DecUnit :=
  match rev d.cfgV c with
  | none => d
  | some val => decSymbol val d

/-- What waits on DEC.Out when the message in progress has ended after the further symbols `y`. -/
def DecUnit.dueSyms (d : DecUnit) (y : List Sym) : List OutItem :=
  d.outWait ++ (symBytes (d.held ++ y)).map outData ++ [outEnd (symErr (d.held ++ y))]

/-- What waits on DEC.Out when the message in progress has ended after the further characters `x`. -/
def DecUnit.due (d : DecUnit) (x : List Byte) : List OutItem := d.dueSyms (decFilter d.cfgV x)

/-- The result that END with the given `err` bit makes of the bytes before it (R205, R206). -/
def resultOfEnd (err : BitVec 1) (z : List Byte) : DecResult :=
  if err = Config.errMalformed then .malformedEncoding else .ok z

/-- `Decode` in terms of the bytes and the `err` bit of the symbols (R160, R163). -/
theorem decodeMsg_eq (v : Variant) (t : List Byte) :
    decodeMsg v t = resultOfEnd (symErr (decFilter v t)) (symBytes (decFilter v t)) := by
  by_cases h : (decFilter v t).length % 4 = 1
  · simp [decodeMsg, resultOfEnd, symErr, h]
  · simp [decodeMsg, resultOfEnd, symErr, symBytes, h, Config.errNone, Config.errMalformed]

theorem symBytes_quad (a b c d : Sym) (y : List Sym) :
    symBytes (a :: b :: c :: d :: y) = [pack1 a b, pack2 b c, pack3 c d] ++ symBytes y := by
  simp [symBytes, decGroups, decGroup]

theorem symErr_quad (a b c d : Sym) (y : List Sym) : symErr (a :: b :: c :: d :: y) = symErr y := by
  simp [symErr, Nat.add_assoc]

/-- Symbols give three bytes for four, rounded down (R185). -/
theorem symBytes_length (y : List Sym) : (symBytes y).length = 3 * y.length / 4 := by
  induction y using decGroups.induct with
  | case1 | case2 | case3 | case4 => simp [symBytes, decGroups, decGroup]
  | case5 a b c d rest ih =>
    simp only [symBytes_quad, List.length_append, ih, List.length_cons, List.length_nil]
    omega

/-- The decoder's step on a CHAR item (R171 to R176). -/
theorem decItem_char (c : Byte) (s : State) :
    decItem (inData c) s = .next (s.setDec ((decLatch s).takeChar c)) := by
  simp only [decItem, inItemEnd_inData, inItemData_inData, execDecInChar, DecUnit.takeChar, Bool.false_eq_true,
    if_false]
  cases rev (decLatch s).cfgV c <;> rfl

/-- The decoder's step on an END item (R171, R177 to R180). -/
theorem decItem_end (b : Byte) (s : State) : decItem (inEnd b) s = .next (s.setDec (decFinish (decLatch s))) := by
  simp [decItem, execDecInEnd]

/-- A symbol changes nothing about what is due: it is held, or the group it completes is emitted (R173 to R176). -/
theorem decSymbol_dueSyms (val : Sym) (d : DecUnit) (y : List Sym) :
    (decSymbol val d).dueSyms y = d.dueSyms (val :: y) := by
  obtain h | h | h | h := cnt_cases d.cnt
  · simp [decSymbol, DecUnit.dueSyms, DecUnit.held, h]
  · simp [decSymbol, DecUnit.dueSyms, DecUnit.held, h]
  · simp [decSymbol, DecUnit.dueSyms, DecUnit.held, h]
  · simp [decSymbol, DecUnit.dueSyms, DecUnit.held, h, symBytes_quad, symErr_quad]

/-- At END the output stream holds what was due, the error included (R177 to R180). -/
theorem decFinish_outWait (d : DecUnit) : (decFinish d).outWait = d.due [] := by
  have hdue : d.due [] = d.outWait ++ (symBytes d.held).map outData ++ [outEnd (symErr d.held)] := by
    simp [DecUnit.due, DecUnit.dueSyms, decFilter]
  rw [hdue]
  obtain h | h | h | h := cnt_cases d.cnt
  · simp [decFinish, malformed, errFlag, DecUnit.held, h, symBytes, symErr, decGroups]
  · simp [decFinish, malformed, errFlag, raiseMalformed, DecUnit.held, h, symBytes, symErr, decGroups, decGroup]
  · simp [decFinish, malformed, errFlag, DecUnit.held, h, symBytes, symErr, decGroups, decGroup]
  · simp [decFinish, malformed, errFlag, DecUnit.held, h, symBytes, symErr, decGroups, decGroup]

@[simp] theorem decSymbol_inp (val : Sym) (d : DecUnit) : (decSymbol val d).inp = d.inp := by
  unfold decSymbol
  split_ifs <;> rfl

@[simp] theorem decSymbol_cfgV (val : Sym) (d : DecUnit) : (decSymbol val d).cfgV = d.cfgV := by
  unfold decSymbol
  split_ifs <;> rfl

@[simp] theorem decSymbol_busy (val : Sym) (d : DecUnit) : (decSymbol val d).busy = d.busy := by
  unfold decSymbol
  split_ifs <;> rfl

theorem decSymbol_setInp (val : Sym) (d : DecUnit) (l : List InItem) :
    (decSymbol val d).setInp l = decSymbol val (d.setInp l) := by
  rw [decSymbol, decSymbol, DecUnit.setInp_cnt]
  split_ifs <;> rfl

theorem DecUnit.takeChar_setInp (d : DecUnit) (c : Byte) (l : List InItem) :
    (d.takeChar c).setInp l = (d.setInp l).takeChar c := by
  unfold takeChar
  rw [setInp_cfgV]
  cases rev d.cfgV c with
  | none => rfl
  | some val => exact decSymbol_setInp val d l

@[simp] theorem DecUnit.takeChar_inp (d : DecUnit) (c : Byte) : (d.takeChar c).inp = d.inp := by
  cases h : rev d.cfgV c <;> simp [takeChar, h]

@[simp] theorem DecUnit.takeChar_cfgV (d : DecUnit) (c : Byte) : (d.takeChar c).cfgV = d.cfgV := by
  cases h : rev d.cfgV c <;> simp [takeChar, h]

@[simp] theorem DecUnit.takeChar_busy (d : DecUnit) (c : Byte) : (d.takeChar c).busy = d.busy := by
  cases h : rev d.cfgV c <;> simp [takeChar, h]

/-- A character, foreign or not, changes nothing about what is due (R172 to R176). -/
theorem DecUnit.takeChar_due (d : DecUnit) (c : Byte) (x : List Byte) : (d.takeChar c).due x = d.due (c :: x) := by
  cases h : rev d.cfgV c with
  | none => simp [due, takeChar, decFilter, h]
  | some val => simp [due, takeChar, decFilter, h, decSymbol_dueSyms]

@[simp] theorem DecUnit.foldl_takeChar_inp (d : DecUnit) (x : List Byte) : (x.foldl takeChar d).inp = d.inp := by
  induction x generalizing d with
  | nil => rfl
  | cons c x ih => exact (ih _).trans (d.takeChar_inp c)

/-- The characters of a message change nothing about what is due. -/
theorem DecUnit.foldl_takeChar_due (d : DecUnit) (x : List Byte) : (x.foldl takeChar d).due [] = d.due x := by
  induction x generalizing d with
  | nil => rfl
  | cons c x ih => exact (ih _).trans (takeChar_due d c x)

theorem decFinish_inp (d : DecUnit) : (decFinish d).inp = d.inp := by
  obtain ⟨ws, h⟩ := decFinish_eq_idle d
  rw [h]
  rfl

theorem decFinish_busy (d : DecUnit) : (decFinish d).busy = false := by
  obtain ⟨ws, h⟩ := decFinish_eq_idle d
  rw [h]
  rfl

@[simp] theorem decLatch_busy (s : State) : (decLatch s).busy = true := by rw [decLatch_eq]

/-- A busy decoder has nothing to latch (R171). -/
theorem decLatch_setDec {d : DecUnit} (h : d.busy = true) (s : State) : decLatch (s.setDec d) = d := by
  simp [decLatch, h]

theorem decLatch_take (s : State) (sched : List Agent) (rest : List InItem) :
    decLatch ((s.setSched sched).setDec { s.dec with inp := rest }) = (decLatch s).setInp rest := by
  rw [decLatch_eq, decLatch_eq]
  rfl

/-- A whole message from an idle decoder: what waits, then the bytes and END with the `err` bit (R181). -/
theorem decLatch_due_of_idle {s : State} (h : s.dec.cnt = 0#2) (x : List Byte) :
    (decLatch s).due x = s.dec.outWait ++ (symBytes (decFilter (decVariant s) x)).map outData ++
      [outEnd (symErr (decFilter (decVariant s) x))] := by
  simp [decLatch_eq, DecUnit.due, DecUnit.dueSyms, DecUnit.held, h]

/-- The decoder's turn on a CHAR item (R56, R171 to R176). -/
theorem step_dec_char {s : State} {c : Byte} {rest : List InItem} {sched : List Agent}
    (h1 : s.sched = .dec :: sched) (h2 : s.dec.inp = inData c :: rest) :
    step s = .next ((s.setSched sched).setDec (((decLatch s).setInp rest).takeChar c)) := by
  rw [← decLatch_take s sched rest]
  exact (step_dec_item h1 h2).trans (decItem_char c _)

/-- The decoder's turn on an END item (R56, R171, R177 to R180). -/
theorem step_dec_end {s : State} {b : Byte} {rest : List InItem} {sched : List Agent}
    (h1 : s.sched = .dec :: sched) (h2 : s.dec.inp = inEnd b :: rest) :
    step s = .next ((s.setSched sched).setDec (decFinish ((decLatch s).setInp rest))) := by
  rw [← decLatch_take s sched rest]
  exact (step_dec_item h1 h2).trans (decItem_end b _)

/-- The decoder's turns over the rest of a message, END included (R56, R181). -/
theorem steps_dec_message {s : State} {x : List Byte} {b : Byte} {rest : List InItem} {sched : List Agent}
    (hs : s.sched = List.replicate (x.length + 1) .dec ++ sched) (hin : s.dec.inp = decMessageItems x b ++ rest) :
    steps (x.length + 1) s =
      .next ((s.setSched sched).setDec (decFinish (x.foldl DecUnit.takeChar ((decLatch s).setInp rest)))) := by
  induction x generalizing s with
  | nil => exact steps_succ_of_next (step_dec_end hs hin) 0
  | cons c x ih =>
    refine (steps_succ_of_next (step_dec_char hs hin) _).trans ((ih rfl (DecUnit.takeChar_inp _ c)).trans ?_)
    rw [decLatch_setDec (by simp), DecUnit.takeChar_setInp]
    rfl

end Sys2Proof.Machine
end

section
/-! SUPPORT. The consumer takes a whole message from an output stream (R54, R205). -/

namespace Sys2Proof.Machine

/-- Taking the characters of a message puts them, in order, in the consumer's hand (R205). -/
theorem steps_take_encChars {s : State} {y : List Byte} {rest : List OutItem} {sched : List Agent}
    {script : List HostAct} (h1 : s.sched = List.replicate y.length .host ++ sched)
    (h2 : s.script = List.replicate y.length (.take .enc) ++ script) (h3 : s.enc.outWait = y.map outData ++ rest) :
    steps y.length s = .next { s with
      sched := sched, script := script,
      enc := { s.enc with outTaken := s.enc.outTaken ++ y.map outData, outWait := rest },
      rx := { s.rx with encChars := s.rx.encChars ++ y } } := by
  induction y generalizing s with
  | nil =>
    obtain rfl : s.sched = sched := h1
    obtain rfl : s.script = script := h2
    obtain rfl : s.enc.outWait = rest := h3
    simp [steps]
  | cons c y ih =>
    refine (steps_succ_of_next (step_take_enc h1 h2 h3 (decode_encOut_char c)) _).trans ((ih rfl rfl rfl).trans ?_)
    simp [State.setRx]

/-- Taking the bytes of a message puts them, in order, in the consumer's hand (R205). -/
theorem steps_take_decBytes {s : State} {z : List Byte} {rest : List OutItem} {sched : List Agent}
    {script : List HostAct} (h1 : s.sched = List.replicate z.length .host ++ sched)
    (h2 : s.script = List.replicate z.length (.take .dec) ++ script) (h3 : s.dec.outWait = z.map outData ++ rest) :
    steps z.length s = .next { s with
      sched := sched, script := script,
      dec := { s.dec with outTaken := s.dec.outTaken ++ z.map outData, outWait := rest },
      rx := { s.rx with decBytes := s.rx.decBytes ++ z } } := by
  induction z generalizing s with
  | nil =>
    obtain rfl : s.sched = sched := h1
    obtain rfl : s.script = script := h2
    obtain rfl : s.dec.outWait = rest := h3
    simp [steps]
  | cons b z ih =>
    refine (steps_succ_of_next (step_take_dec h1 h2 h3 (decode_decOut_byte b)) _).trans ((ih rfl rfl rfl).trans ?_)
    simp [State.setRx]

/-- Taking the characters of a message and its END gives the consumer the characters as a result (R205). -/
theorem steps_take_encMessage {s : State} {y : List Byte} {rest : List OutItem} {sched : List Agent}
    {script : List HostAct} (h1 : s.sched = List.replicate (y.length + 1) .host ++ sched)
    (h2 : s.script = List.replicate (y.length + 1) (.take .enc) ++ script)
    (h3 : s.enc.outWait = y.map outData ++ 0x200#10 :: rest) :
    steps (y.length + 1) s = .next { s with
      sched := sched, script := script,
      enc := { s.enc with outTaken := s.enc.outTaken ++ (y.map outData ++ [0x200#10]), outWait := rest },
      rx := { s.rx with encChars := [], encResults := s.rx.encResults ++ [s.rx.encChars ++ y] } } := by
  rw [List.replicate_succ', List.append_assoc] at h1 h2
  have hend : decode .encOut (0x200#10).toNat = .ok .encOutEnd0 := rfl
  rw [steps_add_of_next (steps_take_encChars h1 h2 h3),
    steps_succ_of_next (step_take_enc (i := .encOutEnd0) rfl rfl rfl hend) 0]
  simp [steps, State.setRx]

/-- Taking END from DEC.Out gives the consumer the result of the message in hand (R205, R206). -/
theorem step_take_decEnd {s : State} {err : BitVec 1} {rest : List OutItem} {sched : List Agent}
    {script : List HostAct} (h1 : s.sched = .host :: sched) (h2 : s.script = .take .dec :: script)
    (h3 : s.dec.outWait = outEnd err :: rest) :
    step s = .next { s with
      sched := sched, script := script,
      dec := { s.dec with outTaken := s.dec.outTaken ++ [outEnd err], outWait := rest },
      rx := { s.rx with decBytes := [], decResults := s.rx.decResults ++ [resultOfEnd err s.rx.decBytes] } } := by
  obtain rfl | rfl := BitVec.eq_zero_or_eq_one err
  · exact step_take_dec (i := .decOutEnd0) h1 h2 h3 rfl
  · exact step_take_dec (i := .decOutEnd1) h1 h2 h3 rfl

/-- Taking the bytes of a message and its END gives the consumer the message's result (R205, R206). -/
theorem steps_take_decMessage {s : State} {z : List Byte} {err : BitVec 1} {rest : List OutItem} {sched : List Agent}
    {script : List HostAct} (h1 : s.sched = List.replicate (z.length + 1) .host ++ sched)
    (h2 : s.script = List.replicate (z.length + 1) (.take .dec) ++ script)
    (h3 : s.dec.outWait = z.map outData ++ outEnd err :: rest) :
    steps (z.length + 1) s = .next { s with
      sched := sched, script := script,
      dec := { s.dec with outTaken := s.dec.outTaken ++ (z.map outData ++ [outEnd err]), outWait := rest },
      rx := { s.rx with
        decBytes := [], decResults := s.rx.decResults ++ [resultOfEnd err (s.rx.decBytes ++ z)] } } := by
  rw [List.replicate_succ', List.append_assoc] at h1 h2
  rw [steps_add_of_next (steps_take_decBytes h1 h2 h3), steps_succ_of_next (step_take_decEnd rfl rfl rfl) 0]
  simp [steps]

end Sys2Proof.Machine
end

section
/-! PROOFS. The statements on fetching, the streams and runs of the machine. -/

namespace Sys2Proof.Proofs

open Sys2Proof Sys2Proof.Machine

/-- Settles O42: the encoder's turns leave `Encode` and END(0) waiting, and the takes after them hand it over. -/
theorem encoderRunDeliversEncode : Obligations.EncoderRunDeliversEncode := by
  intro s x d hbusy hcnt hwait hchars hin y hsched hscript
  have hy : encodeMsg (encVariant s) (encPad s) x = y := by simp [encVariant, encPad, hbusy, y]
  have hcnt3 : s.enc.cnt ≠ 3#2 := by simp [hcnt]
  have hrun := steps_enc_message (rest := []) hcnt3 hsched (by simpa using hin)
  set e := (x.foldl EncUnit.takeByte ((encLatch s).setInp [])).finish with he
  have hout : e.outWait = y.map outData ++ [0x200#10] := calc
    e.outWait = ((encLatch s).setInp []).due x := by
      rw [he, EncUnit.finish_outWait, EncUnit.foldl_takeByte_due (by simpa using hcnt3)]
    _ = (encLatch s).due x := rfl
    _ = y.map outData ++ [0x200#10] := by rw [encLatch_due_of_idle hcnt, hwait, hy, List.nil_append]
  have htake := steps_take_encMessage (s := (s.setSched (List.replicate (y.length + 1) .host)).setEnc e)
    (sched := []) (script := []) (by simp) (by simpa using hscript) hout
  refine ⟨_, (steps_add_of_next hrun _).trans htake, ?_⟩
  simp [hchars, he]

/-- Settles O43: the decoder's turns leave the bytes and END waiting, and the takes after them hand over `Decode`. -/
theorem decoderRunDeliversDecode : Obligations.DecoderRunDeliversDecode := by
  intro s x b hbusy hcnt hwait hbytes hin k hsched hscript
  have hv : variantOfBit (s.decCtrl.getLsbD 0) = decVariant s := by simp [decVariant, hbusy]
  rw [hv]
  set y := decFilter (decVariant s) x with hy
  have hk : k = (symBytes y).length + 1 := by rw [symBytes_length, hy, ← hv]
  rw [hk] at hsched hscript ⊢
  have hrun := steps_dec_message (rest := []) hsched (by simpa using hin)
  set d := decFinish (x.foldl DecUnit.takeChar ((decLatch s).setInp [])) with hd
  have hout : d.outWait = (symBytes y).map outData ++ [outEnd (symErr y)] := calc
    d.outWait = ((decLatch s).setInp []).due x := by rw [hd, decFinish_outWait, DecUnit.foldl_takeChar_due]
    _ = (decLatch s).due x := rfl
    _ = (symBytes y).map outData ++ [outEnd (symErr y)] := by
      rw [decLatch_due_of_idle hcnt, hwait, List.nil_append]
  have htake := steps_take_decMessage (s := (s.setSched (List.replicate ((symBytes y).length + 1) .host)).setDec d)
    (sched := []) (script := []) (by simp) (by simpa using hscript) hout
  refine ⟨_, (steps_add_of_next hrun _).trans htake, ?_⟩
  simp [hbytes, hd, decFinish_inp, decFinish_busy, decodeMsg_eq, hy]

/-- Settles O59: each of a unit's turns takes one item while items wait. -/
theorem unitConsumesOneItemPerStep : Obligations.UnitConsumesOneItemPerStep :=
  fun _ _ _ => ⟨steps_enc_turns, steps_dec_turns⟩

/-- Settles O11. -/
theorem controlWriteReplacesRegister : Obligations.ControlWriteReplacesRegister :=
  fun _ => ⟨fun _ => rfl, fun _ => rfl, rfl, rfl⟩

/-- Settles O52: what the step fetches on each of the seven ports is the word named, and it runs what it decodes to. -/
theorem stepRunsDecodedWord : Obligations.StepRunsDecodedWord := by
  refine fun s i sched script => ⟨?encIn, ?decIn, ?op, ?cr0, ?cr1, ?encOut, ?decOut⟩
  case encIn => exact fun w rest h1 h2 => step_of_word (fetch_enc_item h1 h2)
  case decIn => exact fun w rest h1 h2 => step_of_word (fetch_dec_item h1 h2)
  case op => exact fun w h1 h2 => step_of_word (fetch_op h1 h2)
  case cr0 => exact fun n h1 h2 => step_of_word (fetch_write_cr0 h1 h2)
  case cr1 => exact fun n h1 h2 => step_of_word (fetch_write_cr1 h1 h2)
  case encOut => exact fun w rest => step_take_enc
  case decOut => exact fun w rest => step_take_dec

/-- Settles O54. -/
theorem emptyInputWaits : Obligations.EmptyInputWaits :=
  fun _ _ => ⟨step_enc_wait, step_dec_wait⟩

/-- Settles O57. -/
theorem hostPutAppends : Obligations.HostPutAppends :=
  fun _ _ _ _ h => ⟨step_put h, step_put h⟩

end Sys2Proof.Proofs
end

section
/-! SUPPORT. What each port's decoder answers, word by word as ranges of numbers (R80 to R87), and the character classes
of the two variants as code ranges (R93, R116). -/

namespace Sys2Proof.Machine

/-! ### The words of the ports -/

/-- Bit 8 of a word below 0x200 as a bound. -/
theorem testBit8_eq {w : Nat} (h : w < 0x200) : w.testBit 8 = decide (0x100 ≤ w) := by
  rw [Nat.testBit_eq_decide_div_mod_eq, decide_eq_decide]
  omega

/-- Bit 9 of a word below 0x400 as a bound. -/
theorem testBit9_eq {w : Nat} (h : w < 0x400) : w.testBit 9 = decide (0x200 ≤ w) := by
  rw [Nat.testBit_eq_decide_div_mod_eq, decide_eq_decide]
  omega

theorem itemData_toNat (w : Nat) : (itemData w).toNat = w % 0x100 := BitVec.toNat_ofNat ..

/-- The words of ENC.In (R84): DATA, END with any data field, and numbers of more than nine bits. -/
theorem decode_encIn_eq (w : Nat) : decode .encIn w =
    if w < 0x100 then .ok (.encInData (itemData w))
    else if w < 0x200 then .ok (.encInEnd (itemData w))
    else .rejected .wordTooWide := by
  by_cases h : w < 0x200
  · by_cases h1 : w < 0x100 <;> simp [decode, decodeEncIn, testBit8_eq, h, h1]
  · simp [decode, decodeEncIn, h, show ¬ w < 0x100 by omega]

/-- The words of DEC.In (R85): CHAR, END with any data field, and numbers of more than nine bits. -/
theorem decode_decIn_eq (w : Nat) : decode .decIn w =
    if w < 0x100 then .ok (.decInChar (itemData w))
    else if w < 0x200 then .ok (.decInEnd (itemData w))
    else .rejected .wordTooWide := by
  by_cases h : w < 0x200
  · by_cases h1 : w < 0x100 <;> simp [decode, decodeDecIn, testBit8_eq, h, h1]
  · simp [decode, decodeDecIn, h, show ¬ w < 0x100 by omega]

/-- The words of ENC.Out (R86): CHAR, END(0), the items no encoder emits, and numbers of more than ten bits. -/
theorem decode_encOut_eq (w : Nat) : decode .encOut w =
    if w < 0x100 then .ok (.encOutChar (itemData w))
    else if w = 0x200 then .ok .encOutEnd0
    else if w < 0x400 then .rejected .reservedOutput
    else .rejected .wordTooWide := by
  by_cases h : w < 0x400
  · by_cases h9 : w < 0x200
    · by_cases h1 : w < 0x100 <;> simp [decode, decodeEncOut, testBit8_eq, testBit9_eq, h, h9, h1, h9.not_ge, h9.ne]
    · simp [decode, decodeEncOut, testBit9_eq, h, Nat.le_of_not_lt h9, show ¬ w < 0x100 by omega]
  · simp [decode, decodeEncOut, h, show ¬ w < 0x100 by omega, show w ≠ 0x200 by omega]

/-- The words of DEC.Out (R87): BYTE, END(0), END(1), the items no decoder emits, and numbers of more than ten bits. -/
theorem decode_decOut_eq (w : Nat) : decode .decOut w =
    if w < 0x100 then .ok (.decOutByte (itemData w))
    else if w = 0x200 then .ok .decOutEnd0
    else if w = 0x300 then .ok .decOutEnd1
    else if w < 0x400 then .rejected .reservedOutput
    else .rejected .wordTooWide := by
  by_cases h : w < 0x400
  · by_cases h9 : w < 0x200
    · by_cases h1 : w < 0x100 <;>
        simp [decode, decodeDecOut, testBit8_eq, testBit9_eq, h, h9, h1, h9.not_ge, h9.ne, show w ≠ 0x300 by omega]
    · simp [decode, decodeDecOut, testBit9_eq, h, Nat.le_of_not_lt h9, show ¬ w < 0x100 by omega]
  · simp [decode, decodeDecOut, h, show ¬ w < 0x100 by omega, show w ≠ 0x200 by omega, show w ≠ 0x300 by omega]

/-- The OP words that name an operation (R81, R95). -/
theorem decode_op_accepts_iff (w : Nat) : (∃ i, decode .op w = .ok i) ↔ w ≤ 5 := by
  match w with
  | 0 | 1 | 2 | 3 | 4 | 5 | 6 | 7 => simp [decode, decodeOp]
  | n + 8 => simp [decode, decodeOp]

/-- The input words are those of nine bits (R84). -/
theorem decode_encIn_accepts_iff (w : Nat) : (∃ i, decode .encIn w = .ok i) ↔ w < 0x200 := by
  rw [decode_encIn_eq]
  split_ifs <;> simp <;> omega

/-- The input words are those of nine bits (R85). -/
theorem decode_decIn_accepts_iff (w : Nat) : (∃ i, decode .decIn w = .ok i) ↔ w < 0x200 := by
  rw [decode_decIn_eq]
  split_ifs <;> simp <;> omega

/-- The output words are the CHAR items and END(0) (R86). -/
theorem decode_encOut_accepts_iff (w : Nat) : (∃ i, decode .encOut w = .ok i) ↔ w < 0x100 ∨ w = 0x200 := by
  rw [decode_encOut_eq]
  split_ifs <;> simp <;> omega

/-- The output words are the BYTE items, END(0) and END(1) (R87). -/
theorem decode_decOut_accepts_iff (w : Nat) :
    (∃ i, decode .decOut w = .ok i) ↔ w < 0x100 ∨ w = 0x200 ∨ w = 0x300 := by
  rw [decode_decOut_eq]
  split_ifs <;> simp <;> omega

/-! ### The characters of the variants -/

/-- A symbol is a letter, a digit or one of the two characters of its variant (R93, R116). -/
theorem isSymbol_iff (v : Variant) (c : Byte) :
    isSymbol v c = true ↔
      (0x41 ≤ c.toNat ∧ c.toNat ≤ 0x5A) ∨ (0x61 ≤ c.toNat ∧ c.toNat ≤ 0x7A) ∨ (0x30 ≤ c.toNat ∧ c.toNat ≤ 0x39) ∨
      c = (alphaTail v).1 ∨ c = (alphaTail v).2 := by
  simp only [isSymbol, rev]
  split_ifs <;> simp [*]

end Sys2Proof.Machine
end

section
/-! PROOFS. The statements on the words of the ports and on the character classes. -/

namespace Sys2Proof.Proofs

open Sys2Proof Sys2Proof.Machine

/-- Settles O1, row by row: the port tells the row, and the layout of the word keeps every bit of the operand. -/
theorem decodeInvertsEncodeWord : Obligations.DecodeInvertsEncodeWord := by
  intro i
  cases i with
  | encStdNopad | encUrlNopad | encStdPad | encUrlPad | decStd | decUrl => rfl
  | encInData b => exact decode_encIn_data b
  | encInEnd d => exact decode_encIn_end d
  | decInChar c => exact decode_decIn_char c
  | decInEnd d => exact decode_decIn_end d
  | encOutChar c => exact decode_encOut_char c
  | decOutByte b => exact decode_decOut_byte b
  | encOutEnd0 | decOutEnd0 | decOutEnd1 => rfl
  | encCtrl n => simp [decode, encode]
  | decCtrl n => simp [decode, encode]

/-- Settles O2, port by port: in the range of words in which a port's decoder answers a row, that row's layout writes
the word again. -/
theorem encodeInvertsDecodeWord : Obligations.EncodeInvertsDecodeWord := by
  intro p w i hw hi
  cases p with
  | op =>
    simp only [decode, decodeOp] at hi
    split at hi <;> cases hi <;> rfl
  | cr0 =>
    cases hi
    simpa [encode, Port.width] using hw
  | cr1 =>
    cases hi
    simpa [encode, Port.width] using hw
  | encIn =>
    rw [decode_encIn_eq] at hi
    split_ifs at hi <;> cases hi <;> simp [encode, itemData_toNat] <;> omega
  | decIn =>
    rw [decode_decIn_eq] at hi
    split_ifs at hi <;> cases hi <;> simp [encode, itemData_toNat] <;> omega
  | encOut =>
    rw [decode_encOut_eq] at hi
    split_ifs at hi with h1 h2
    · cases hi
      simpa [encode, itemData_toNat] using h1
    · cases hi
      rw [h2]
      rfl
  | decOut =>
    rw [decode_decOut_eq] at hi
    split_ifs at hi with h1 h2 h3
    · cases hi
      simpa [encode, itemData_toNat] using h1
    · cases hi
      rw [h2]
      rfl
    · cases hi
      rw [h3]
      rfl

/-- Settles O3, port by port. -/
theorem acceptedWordsOfEachPort : Obligations.AcceptedWordsOfEachPort :=
  fun w => ⟨decode_op_accepts_iff w, decode_encIn_accepts_iff w, decode_decIn_accepts_iff w,
    decode_encOut_accepts_iff w, decode_decOut_accepts_iff w,
    ⟨_, rfl, BitVec.toNat_ofNat ..⟩, ⟨_, rfl, BitVec.toNat_ofNat ..⟩⟩

/-- Settles O4: the decoder runs on each of the fifteen words. -/
theorem specWordsDecode : Obligations.SpecWordsDecode := by
  unfold Obligations.SpecWordsDecode
  decide

/-- Settles O8: the two characters of each variant, put into `isSymbol_iff`. -/
theorem characterClasses : Obligations.CharacterClasses := by
  intro v c
  rw [isSymbol_iff]
  cases v <;> simp [alphaTail]

end Sys2Proof.Proofs
end

section
/-! SUPPORT. The operations over a message (R101), what they leave alone, and what `Decode` says of the symbols of a
text whose last one stands alone (R163, R181). -/

namespace Sys2Proof.Machine

/-! ### The encoder's operations -/

@[simp] theorem EncUnit.takeByte_cfgV (e : EncUnit) (b : Byte) : (e.takeByte b).cfgV = e.cfgV := by
  unfold takeByte
  split_ifs <;> rfl

@[simp] theorem EncUnit.takeByte_cfgP (e : EncUnit) (b : Byte) : (e.takeByte b).cfgP = e.cfgP := by
  unfold takeByte
  split_ifs <;> rfl

@[simp] theorem EncUnit.takeByte_outTaken (e : EncUnit) (b : Byte) : (e.takeByte b).outTaken = e.outTaken := by
  unfold takeByte
  split_ifs <;> rfl

/-- The bytes of a message change neither the latched configuration nor the items taken (R141 to R144). -/
theorem EncUnit.foldl_takeByte_frame (e : EncUnit) (x : List Byte) :
    (x.foldl takeByte e).cfgV = e.cfgV ∧ (x.foldl takeByte e).cfgP = e.cfgP ∧
      (x.foldl takeByte e).outTaken = e.outTaken := by
  induction x generalizing e with
  | nil => exact ⟨rfl, rfl, rfl⟩
  | cons b x ih => simpa using ih (e.takeByte b)

/-- An encoder operation takes a DATA item and goes on with the rest of the stream (R101, R142 to R144). -/
theorem encMessage_data_next {s : State} (hcnt : s.enc.cnt ≠ 3#2) (b : Byte) (rest : List InItem) :
    encMessage (inData b :: rest) s =
      encMessage rest (s.setEnc (((encLatch s).setInp rest).takeByte b)) := by
  have h : execEncInData b (s.setEnc { s.enc with inp := rest }) =
      .next (s.setEnc (((encLatch s).setInp rest).takeByte b)) := by
    rw [← encLatch_take s s.sched rest]
    exact (exec_encInData b _).trans (encItem_data b hcnt)
  rw [encMessage_data, h]

/-- An encoder operation takes END and stops (R101, R145 to R147). -/
theorem encMessage_end_next {s : State} (hcnt : s.enc.cnt ≠ 3#2) (d : Byte) (rest : List InItem) :
    encMessage (inEnd d :: rest) s = .next (s.setEnc ((encLatch s).setInp rest).finish) := by
  rw [encMessage_end, ← encLatch_take s s.sched rest]
  exact (exec_encInEnd d _).trans (encItem_end d hcnt)

/-- An encoder operation takes the whole message at the front of the stream and no more (R101, R148). -/
theorem encMessage_message {s : State} (hcnt : s.enc.cnt ≠ 3#2) (x : List Byte) (d : Byte) (rest : List InItem) :
    encMessage (encMessageItems x d ++ rest) s =
      .next (s.setEnc (x.foldl EncUnit.takeByte ((encLatch s).setInp rest)).finish) := by
  induction x generalizing s with
  | nil => exact encMessage_end_next hcnt d rest
  | cons b x ih =>
    refine (encMessage_data_next hcnt b _).trans ((ih (EncUnit.takeByte_cnt _ b)).trans ?_)
    rw [encLatch_setEnc (by simp), EncUnit.takeByte_setInp]
    rfl

/-- The encoder after a whole message from an idle one: `Encode` and END(0) are appended, and nothing but the holding
registers is left of the message (R148). -/
theorem encLatch_message {s : State} (hcnt : s.enc.cnt = 0#2) (x : List Byte) (rest : List InItem) :
    let e := (x.foldl EncUnit.takeByte ((encLatch s).setInp rest)).finish
    e.outWait = s.enc.outWait ++ (encodeMsg (encVariant s) (encPad s) x).map outData ++ [0x200#10] ∧
      e.inp = rest ∧ e.busy = false ∧ e.cnt = 0#2 ∧ e.outTaken = s.enc.outTaken ∧
      e.cfgV = encVariant s ∧ e.cfgP = encPad s := by
  have hcnt3 : ((encLatch s).setInp rest).cnt ≠ 3#2 := by simp [hcnt]
  obtain ⟨hv, hp, ht⟩ := ((encLatch s).setInp rest).foldl_takeByte_frame x
  obtain ⟨hv0, hp0, ht0⟩ : ((encLatch s).setInp rest).cfgV = encVariant s ∧
      ((encLatch s).setInp rest).cfgP = encPad s ∧ ((encLatch s).setInp rest).outTaken = s.enc.outTaken := by
    rw [encLatch_eq]
    exact ⟨rfl, rfl, rfl⟩
  refine ⟨?_, by simp, rfl, rfl, ht.trans ht0, hv.trans hv0, hp.trans hp0⟩
  calc
    _ = ((encLatch s).setInp rest).due x := by rw [EncUnit.finish_outWait, EncUnit.foldl_takeByte_due hcnt3]
    _ = (encLatch s).due x := rfl
    _ = _ := encLatch_due_of_idle hcnt x

/-- An operation that sets ENC_CTRL to `n` yields `Encode` at the variant and the padding flag of `n` (R137 to R140). -/
theorem encOperationYields_of_exec {i : Instr} {n : BitVec 2} (hi : ∀ s, exec i s = encOperation n s) :
    EncOperationYields i n (encCtrlVariant n) (encCtrlPad n) := by
  intro s x d rest hbusy hcnt hin
  have hv : encVariant (s.setEncCtrl n) = encCtrlVariant n := by simp [encVariant, encCtrlVariant, hbusy]
  have hp : encPad (s.setEncCtrl n) = encCtrlPad n := by simp [encPad, encCtrlPad, hbusy]
  have hrun : exec i s = .next ((s.setEncCtrl n).setEnc
      (x.foldl EncUnit.takeByte ((encLatch (s.setEncCtrl n)).setInp rest)).finish) := by
    rw [hi, encOperation, hin]
    exact encMessage_message (by simp [hcnt]) x d rest
  obtain ⟨hout, hinp, hbusy', hcnt', htaken, hcfgV, hcfgP⟩ := encLatch_message (s := s.setEncCtrl n) hcnt x rest
  rw [hv, hp] at hout
  exact ⟨_, hrun, hout, hinp, hbusy', hcnt', htaken, hcfgV.trans hv, hcfgP.trans hp, rfl, rfl⟩

/-- An encoder operation, busy or idle before, takes the stream up to and including the first END and touches only the
encoder and ENC_CTRL (R101, R240). -/
theorem encOperation_next {s : State} (hcnt : s.enc.cnt ≠ 3#2) (n : BitVec 2) :
    ∃ e, encOperation n s = .next ((s.setEncCtrl n).setEnc e) ∧ e.inp = afterEnd s.enc.inp := by
  obtain ⟨e, -, he, hinp, -⟩ := encMessage_next s.enc.inp (s.setEncCtrl n) rfl hcnt
  exact ⟨e, he, hinp⟩

/-! ### The decoder's operations -/

@[simp] theorem decSymbol_outTaken (val : Sym) (d : DecUnit) : (decSymbol val d).outTaken = d.outTaken := by
  unfold decSymbol
  split_ifs <;> rfl

@[simp] theorem DecUnit.takeChar_outTaken (d : DecUnit) (c : Byte) : (d.takeChar c).outTaken = d.outTaken := by
  cases h : rev d.cfgV c <;> simp [takeChar, h]

/-- The characters of a message change neither the latched variant nor the items taken (R171 to R176). -/
theorem DecUnit.foldl_takeChar_frame (d : DecUnit) (x : List Byte) :
    (x.foldl takeChar d).cfgV = d.cfgV ∧ (x.foldl takeChar d).outTaken = d.outTaken := by
  induction x generalizing d with
  | nil => exact ⟨rfl, rfl⟩
  | cons c x ih => simpa using ih (d.takeChar c)

/-- A decoder operation takes a CHAR item and goes on with the rest of the stream (R101, R172 to R176). -/
theorem decMessage_char_next (c : Byte) (rest : List InItem) (s : State) :
    decMessage (inData c :: rest) s = decMessage rest (s.setDec (((decLatch s).setInp rest).takeChar c)) := by
  have h : execDecInChar c (s.setDec { s.dec with inp := rest }) =
      .next (s.setDec (((decLatch s).setInp rest).takeChar c)) := by
    rw [← decLatch_take s s.sched rest]
    exact (exec_decInChar c _).trans (decItem_char c _)
  rw [decMessage_char, h]

/-- A decoder operation takes END and stops (R101, R177 to R180). -/
theorem decMessage_end_next (b : Byte) (rest : List InItem) (s : State) :
    decMessage (inEnd b :: rest) s = .next (s.setDec (decFinish ((decLatch s).setInp rest))) := by
  rw [decMessage_end, ← decLatch_take s s.sched rest]
  rfl

/-- A decoder operation takes the whole message at the front of the stream and no more (R101, R181). -/
theorem decMessage_message (x : List Byte) (b : Byte) (rest : List InItem) (s : State) :
    decMessage (decMessageItems x b ++ rest) s =
      .next (s.setDec (decFinish (x.foldl DecUnit.takeChar ((decLatch s).setInp rest)))) := by
  induction x generalizing s with
  | nil => exact decMessage_end_next b rest s
  | cons c x ih =>
    refine (decMessage_char_next c _ s).trans ((ih _).trans ?_)
    rw [decLatch_setDec (by simp), DecUnit.takeChar_setInp]
    rfl

/-- The decoder after a whole message from an idle one: the bytes and END with the `err` bit are appended, and nothing
but the holding registers is left of the message (R181). -/
theorem decLatch_message {s : State} (hcnt : s.dec.cnt = 0#2) (x : List Byte) (rest : List InItem) :
    let d := decFinish (x.foldl DecUnit.takeChar ((decLatch s).setInp rest))
    let y := decFilter (decVariant s) x
    d.outWait = s.dec.outWait ++ ((symBytes y).map outData ++ [outEnd (symErr y)]) ∧
      d.inp = rest ∧ d.busy = false ∧ d.cnt = 0#2 ∧ d.outTaken = s.dec.outTaken ∧ d.cfgV = decVariant s := by
  intro d y
  obtain ⟨hv, ht⟩ := ((decLatch s).setInp rest).foldl_takeChar_frame x
  obtain ⟨hv0, ht0⟩ : ((decLatch s).setInp rest).cfgV = decVariant s ∧
      ((decLatch s).setInp rest).outTaken = s.dec.outTaken := by
    rw [decLatch_eq]
    exact ⟨rfl, rfl⟩
  have hout : d.outWait = s.dec.outWait ++ ((symBytes y).map outData ++ [outEnd (symErr y)]) := calc
    d.outWait = ((decLatch s).setInp rest).due x := by rw [decFinish_outWait, DecUnit.foldl_takeChar_due]
    _ = (decLatch s).due x := rfl
    _ = _ := by rw [decLatch_due_of_idle hcnt, List.append_assoc]
  refine ⟨hout, ?_⟩
  obtain ⟨ws, hidle⟩ := decFinish_eq_idle (x.foldl DecUnit.takeChar ((decLatch s).setInp rest))
  simp only [d, hidle]
  exact ⟨by simp, rfl, rfl, ht.trans ht0, hv.trans hv0⟩

/-- After complete groups a symbol that stands alone gives no byte (R91, R163). -/
theorem symBytes_append_singleton {y : List Sym} (h : y.length % 4 = 0) (a : Sym) :
    symBytes (y ++ [a]) = symBytes y := by
  induction y using decGroups.induct with
  | case1 => simp [symBytes, decGroups, decGroup]
  | case2 | case3 | case4 => simp at h
  | case5 b c d e rest ih =>
    simp only [List.cons_append, symBytes_quad]
    rw [ih (by simpa [Nat.add_assoc] using h)]

/-- A text whose symbols end in `a` is cut at the character of that symbol: only foreign characters follow, and without
that character the text has the symbols before `a` (R161). -/
theorem decFilter_eq_concat {v : Variant} {t : List Byte} {y : List Sym} {a : Sym} (h : decFilter v t = y ++ [a]) :
    ∃ t1 c t2, t = t1 ++ c :: t2 ∧ isSymbol v c = true ∧ (∀ x ∈ t2, isSymbol v x = false) ∧
      decFilter v (t1 ++ t2) = y := by
  obtain ⟨l, r, rfl, hl, hr⟩ := List.filterMap_eq_append_iff.1 h
  obtain ⟨m, c, t2, rfl, hm, hc, ht2⟩ := List.filterMap_eq_cons_iff.1 hr
  have hforeign := List.filterMap_eq_nil_iff.1 ht2
  refine ⟨l ++ m, c, t2, by simp, by simp [isSymbol, hc], fun x hx => by simp [isSymbol, hforeign x hx], ?_⟩
  rw [decFilter, List.append_assoc, List.filterMap_append, List.filterMap_append, hl, ht2,
    List.filterMap_eq_nil_iff.2 hm, List.append_nil, List.append_nil]

/-- The bytes of the symbols of a text and END with their `err` bit are what `Decode` says of the text (R163, R181). -/
theorem decEmits_symBytes (v : Variant) (t : List Byte) :
    DecEmits v t ((symBytes (decFilter v t)).map outData ++ [outEnd (symErr (decFilter v t))]) := by
  set y := decFilter v t with hy
  by_cases h : y.length % 4 = 1
  · obtain ⟨y', a, hya⟩ : ∃ y' a, y = y' ++ [a] :=
      ⟨_, _, (List.dropLast_append_getLast (List.ne_nil_of_length_pos (by omega))).symm⟩
    have hlen : y'.length + 1 = y.length := by simp [hya]
    have h0 : y'.length % 4 = 0 := by omega
    obtain ⟨t1, c, t2, ht, hc, ht2, hrest⟩ := decFilter_eq_concat (hy.symm.trans hya)
    have herr : decodeMsg v t = .malformedEncoding := by simp [decodeMsg, ← hy, h]
    have hw : decodeMsg v (t1 ++ t2) = .ok (symBytes y) := by
      rw [hya, symBytes_append_singleton h0]
      simp [decodeMsg, hrest, h0, symBytes]
    rw [DecEmits, herr]
    refine ⟨t1, c, t2, _, ht, hc, ht2, hw, ?_, ?_⟩
    · rw [symBytes_length, ← hy]
      omega
    · rw [symErr, if_pos h, outEnd_malformed]
  · have hok : decodeMsg v t = .ok (symBytes y) := by simp [decodeMsg, ← hy, h, symBytes]
    rw [DecEmits, hok, symErr, if_neg h, outEnd_none]

/-- An operation that sets DEC_CTRL to `n` yields `Decode` at the variant of `n` (R169, R170). -/
theorem decOperationYields_of_exec {i : Instr} {n : BitVec 1} (hi : ∀ s, exec i s = decOperation n s) :
    DecOperationYields i n (decCtrlVariant n) := by
  intro s x b rest hbusy hcnt hin
  have hv : decVariant (s.setDecCtrl n) = decCtrlVariant n := by simp [decVariant, decCtrlVariant, hbusy]
  have hrun : exec i s = .next ((s.setDecCtrl n).setDec
      (decFinish (x.foldl DecUnit.takeChar ((decLatch (s.setDecCtrl n)).setInp rest)))) := by
    rw [hi, decOperation, hin]
    exact decMessage_message x b rest _
  obtain ⟨hout, hinp, hbusy', hcnt', htaken, hcfgV⟩ := decLatch_message (s := s.setDecCtrl n) hcnt x rest
  rw [hv] at hout hcfgV
  exact ⟨_, _, hrun, hout, decEmits_symBytes _ x, hinp, hbusy', hcnt', htaken, hcfgV, rfl, rfl⟩

/-- A decoder operation, busy or idle before, takes the stream up to and including the first END and touches only the
decoder and DEC_CTRL (R101, R240). -/
theorem decOperation_next (n : BitVec 1) (s : State) :
    ∃ d, decOperation n s = .next ((s.setDecCtrl n).setDec d) ∧ d.inp = afterEnd s.dec.inp := by
  obtain ⟨d, -, hd, hinp, -⟩ := decMessage_next s.dec.inp (s.setDecCtrl n) rfl
  exact ⟨d, hd, hinp⟩

end Sys2Proof.Machine
end

section
/-! PROOFS. The statements on the six operations. -/

namespace Sys2Proof.Proofs

open Sys2Proof Sys2Proof.Machine

/-- Settles O34: each operation is the encoder over the message waiting, under its own ENC_CTRL. -/
theorem encoderOperationsYieldEncode : Obligations.EncoderOperationsYieldEncode :=
  ⟨encOperationYields_of_exec fun _ => rfl, encOperationYields_of_exec fun _ => rfl,
    encOperationYields_of_exec fun _ => rfl, encOperationYields_of_exec fun _ => rfl⟩

/-- Settles O35: each operation is the decoder over the message waiting, under its own DEC_CTRL. -/
theorem decoderOperationsYieldDecode : Obligations.DecoderOperationsYieldDecode :=
  ⟨decOperationYields_of_exec fun _ => rfl, decOperationYields_of_exec fun _ => rfl⟩

/-- Settles O36: a unit's step answers a next state on every item, so the unit goes on to END or to the end of the
stream. -/
theorem operationsAlwaysComplete : Obligations.OperationsAlwaysComplete := by
  refine fun s => ⟨fun hcnt i hi => ?_, fun i hi => ?_⟩
  · obtain ⟨n, hn⟩ : ∃ n, ∀ s, exec i s = encOperation n s := by
      obtain rfl | rfl | rfl | rfl : i = .encStdNopad ∨ i = .encUrlNopad ∨ i = .encStdPad ∨ i = .encUrlPad := by
        simpa using hi
      all_goals exact ⟨_, fun _ => rfl⟩
    obtain ⟨e, he, hinp⟩ := encOperation_next hcnt n
    exact ⟨_, (hn s).trans he, hinp, rfl, rfl, rfl⟩
  · obtain ⟨n, hn⟩ : ∃ n, ∀ s, exec i s = decOperation n s := by
      obtain rfl | rfl : i = .decStd ∨ i = .decUrl := by simpa using hi
      all_goals exact ⟨_, fun _ => rfl⟩
    obtain ⟨d, hd, hinp⟩ := decOperation_next n s
    exact ⟨_, (hn s).trans hd, hinp, rfl, rfl, rfl⟩

end Sys2Proof.Proofs
end

section
/-! SUPPORT. Where a step can stop, and the host's turns under the default order: every word a fetch finds in a state
that meets the invariant decodes, but for an OP word (R95), and no row stops while `cnt` is legal (R43). -/

namespace Sys2Proof.Machine

/-! ### Writes and reads of the control registers -/

section HostTurn
variable {s : State} {sched : List Agent} {script : List HostAct}

/-- A write line for CR0 leaves the defined bits of its word in ENC_CTRL (R53, R94). -/
theorem step_write_cr0 {n : Nat} (h1 : s.sched = .host :: sched) (h2 : s.script = .write .cr0 n :: script) :
    step s = .next (((s.setSched sched).setScript script).setEncCtrl (BitVec.ofNat 2 n)) :=
  step_of_word (i := .encCtrl _) (fetch_write_cr0 h1 h2) rfl

/-- A write line for CR1 leaves the defined bit of its word in DEC_CTRL (R53, R94). -/
theorem step_write_cr1 {n : Nat} (h1 : s.sched = .host :: sched) (h2 : s.script = .write .cr1 n :: script) :
    step s = .next (((s.setSched sched).setScript script).setDecCtrl (BitVec.ofNat 1 n)) :=
  step_of_word (i := .decCtrl _) (fetch_write_cr1 h1 h2) rfl

/-- A read line gives the host the register's value (R53, R65). -/
theorem step_read {cr : CrNum} (h1 : s.sched = .host :: sched) (h2 : s.script = .read cr :: script) :
    step s = .next (readAct cr ((s.setSched sched).setScript script)) :=
  step_of_act (a := .read cr) (by simp [fetch_host h1, fetchHost, h2])

/-- At RUN, or after the last line, with both input streams empty the host only uses its line and its turn up (R100). -/
theorem step_run_done (h1 : s.sched = .host :: sched) (h2 : s.script = [] ∨ ∃ rest, s.script = .run :: rest)
    (he : s.enc.inp = []) (hd : s.dec.inp = []) :
    step s = .next ((s.setSched sched).setScript s.script.tail) := by
  obtain h2 | ⟨rest, h2⟩ := h2
  · have hs : (s.setSched sched).setScript s.script.tail = s.setSched sched := by
      rw [h2, List.tail_nil, ← h2]
      rfl
    rw [hs]
    simp [step, fetch_host h1, fetchHost, h2]
  · simp [step, fetch_host h1, fetchHost, h2, he, hd]

end HostTurn

/-- At RUN and after the last line the default agent is a unit with input, the encoder first, or else the host
(R100, notes/assumptions/6.md). -/
theorem defaultAgent_run {s : State} (h : s.script = [] ∨ ∃ rest, s.script = .run :: rest) :
    defaultAgent s = if s.enc.inp ≠ [] then .enc else if s.dec.inp ≠ [] then .dec else .host := by
  obtain h | ⟨rest, h⟩ := h <;> simp only [defaultAgent, h]

/-! ### Every word but an OP word decodes -/

/-- An item the encoder can produce is a word of ENC.Out (R86). -/
theorem decode_encOut_of_ok {w : OutItem} (h : encOutOk w) : ∃ i, decode .encOut w.toNat = .ok i := by
  obtain rfl | ⟨c, rfl, -⟩ := h
  · exact ⟨_, rfl⟩
  · exact ⟨_, outData_eq c ▸ decode_encOut_char c⟩

/-- An item the decoder can produce is a word of DEC.Out (R87). -/
theorem decode_decOut_of_ok {w : OutItem} (h : decOutOk w) : ∃ i, decode .decOut w.toNat = .ok i := by
  obtain rfl | rfl | ⟨b, rfl⟩ := h
  · exact ⟨_, rfl⟩
  · exact ⟨_, rfl⟩
  · exact ⟨_, outData_eq b ▸ decode_decOut_byte b⟩

section FetchedWords
variable {s t : State} {p : Port} {w : Nat}

theorem fetchEnc_word_decodes (h : fetchEnc s = .word p w t) : ∃ i, decode p w = .ok i := by
  unfold fetchEnc at h
  split at h <;> cases h
  next item _ _ =>
    obtain ⟨i, hi, -⟩ := decode_encIn_item item
    exact ⟨i, hi⟩

theorem fetchDec_word_decodes (h : fetchDec s = .word p w t) : ∃ i, decode p w = .ok i := by
  unfold fetchDec at h
  split at h <;> cases h
  next item _ _ =>
    obtain ⟨i, hi, -⟩ := decode_decIn_item item
    exact ⟨i, hi⟩

/-- The items waiting on an output stream are ones its unit can produce, so the host can take them (R54, R86, R87). -/
theorem fetchOut_word_decodes (hinv : Inv s) {u : UnitId} (h : fetchOut u s = .word p w t) :
    ∃ i, decode p w = .ok i := by
  cases u with
  | enc =>
    simp only [fetchOut] at h
    split at h <;> cases h
    next item rest hw => exact decode_encOut_of_ok (hinv.encOut item (by simp [EncUnit.out, hw]))
  | dec =>
    simp only [fetchOut] at h
    split at h <;> cases h
    next item rest hw => exact decode_decOut_of_ok (hinv.decOut item (by simp [DecUnit.out, hw]))

/-- A word of the host's turn decodes, or it is the OP word of its line (R80, R95). -/
theorem fetchHost_word_decodes (hinv : Inv s) (h : fetchHost s = .word p w t) :
    (∃ i, decode p w = .ok i) ∨ p = .op ∧ ∃ script, s.script = .op w :: script := by
  unfold fetchHost at h
  split at h
  · cases h
  next a rest hs =>
    cases a with
    | op n =>
      cases h
      exact .inr ⟨rfl, rest, hs⟩
    | write cr n => cases cr <;> cases h <;> exact .inl ⟨_, rfl⟩
    | take u => exact .inl (fetchOut_word_decodes (s := s.setScript rest) (hinv.of_units_eq rfl rfl) h)
    | run =>
      dsimp only at h
      split_ifs at h
    | reset | resetUnit | read | put => cases h

/-- A word that a step finds decodes, or it is the OP word of the host's line (R95). -/
theorem fetch_word_decodes (hinv : Inv s) (h : fetch s = .word p w t) :
    (∃ i, decode p w = .ok i) ∨ p = .op ∧ ∃ script, s.script = .op w :: script := by
  unfold fetch at h
  cases ha : nextAgent s with
  | host =>
    rw [ha] at h
    exact fetchHost_word_decodes (s := s.setSched s.sched.tail) (hinv.of_units_eq rfl rfl) h
  | enc =>
    rw [ha] at h
    exact .inl (fetchEnc_word_decodes h)
  | dec =>
    rw [ha] at h
    exact .inl (fetchDec_word_decodes h)

end FetchedWords

/-! ### No row stops while `cnt` is legal -/

/-- With `ENC.cnt` legal (R43) every row of the table answers a next state (R200). -/
theorem exec_next {s : State} (h : s.enc.cnt ≠ 3#2) (i : Instr) : ∃ t, exec i s = .next t := by
  cases i with
  | encStdNopad | encUrlNopad | encStdPad | encUrlPad =>
    obtain ⟨e, he, -⟩ := encOperation_next h _
    exact ⟨_, he⟩
  | decStd | decUrl =>
    obtain ⟨d, hd, -⟩ := decOperation_next _ s
    exact ⟨_, hd⟩
  | encInData b => exact ⟨_, (exec_encInData b s).trans (encItem_data b h)⟩
  | encInEnd d => exact ⟨_, (exec_encInEnd d s).trans (encItem_end d h)⟩
  | decInChar c => exact ⟨_, (exec_decInChar c s).trans (decItem_char c s)⟩
  | decInEnd d => exact ⟨_, (exec_decInEnd d s).trans (decItem_end d s)⟩
  | encOutChar | encOutEnd0 | decOutByte | decOutEnd0 | decOutEnd1 | encCtrl | decCtrl => exact ⟨_, rfl⟩

end Sys2Proof.Machine
end

section
/-! PROOFS. The statements on reserved bits, on where a step stops and on the default order. -/

namespace Sys2Proof.Proofs

open Sys2Proof Sys2Proof.Machine

/-- Settles O12: the write keeps the word's defined bits, and the read gives them as a number. -/
theorem reservedControlBitsIgnored : Obligations.ReservedControlBitsIgnored := by
  refine fun s n script sched h => ⟨fun hs => ?_, fun hs => ?_⟩
  · rw [steps_two_of_next (step_write_cr0 h hs), step_read rfl rfl]
    rfl
  · rw [steps_two_of_next (step_write_cr1 h hs), step_read rfl rfl]
    rfl

/-- Settles O51: what the fetch finds is nothing, an action or a word; a word decodes and runs, or it is an OP word that
the decoder rejects. -/
theorem stepStopsOnlyAtUnformableOp : Obligations.StepStopsOnlyAtUnformableOp := by
  intro s hinv
  cases hf : fetch s with
  | wait t => exact .inl ⟨t, by simp only [step, hf]⟩
  | act a t => exact .inl ⟨_, step_of_act hf⟩
  | word p w t =>
    have ht : Inv t := (hf ▸ inv_fetch hinv :)
    cases hi : decode p w with
    | ok i =>
      obtain ⟨u, hu⟩ := exec_next ht.encCnt i
      exact .inl ⟨u, (step_of_word hf hi).trans hu⟩
    | rejected r =>
      have hno : ¬ ∃ i, decode p w = .ok i := by simp [hi]
      obtain ⟨rfl, script, hs⟩ := (fetch_word_decodes hinv hf).resolve_left hno
      rw [decode_op_accepts_iff] at hno
      exact .inr ⟨refusalOf r, w, script, by simp only [step, hf, hi], hs, by omega⟩

/-- Settles O53: an empty schedule is one turn of the default agent. -/
theorem emptyScheduleFollowsTheScript : Obligations.EmptyScheduleFollowsTheScript := by
  refine fun s h => ⟨fun a rest hs ha => ?_, fun hs => ⟨fun he => ?_, fun he hd => ?_, fun he hd => ?_⟩⟩
  · rw [step_default s h, defaultAgent_line hs ha]
  · rw [step_default s h, defaultAgent_run hs, if_pos he]
  · rw [step_default s h, defaultAgent_run hs, if_neg (not_not.2 he), if_pos hd]
  · rw [step_default s h, defaultAgent_run hs, if_neg (not_not.2 he), if_neg (not_not.2 hd)]
    refine (step_run_done (s := { s with sched := [.host] }) (sched := []) rfl hs he hd).trans ?_
    simp [State.setScript, State.setSched, h]

end Sys2Proof.Proofs
end

section
/-! SUPPORT. The two look-ups range by range, and that they undo each other: an entry of ALPHA falls in the range of REV
that gives its index, and back (R111, R115, R116, R122). -/

namespace Sys2Proof.Machine

/-! ### The three common runs, by index and by code -/

/-- `A` to `Z` at indices 0 to 25 (R111). -/
theorem toNat_alpha_of_upper (v : Variant) {i : Sym} (h : i.toNat ≤ 25) : (alpha v i).toNat = 0x41 + i.toNat := by
  simp only [alpha]
  rw [if_pos h, BitVec.toNat_ofNat]
  omega

/-- `a` to `z` at indices 26 to 51 (R111). -/
theorem toNat_alpha_of_lower (v : Variant) {i : Sym} (h : 26 ≤ i.toNat ∧ i.toNat ≤ 51) :
    (alpha v i).toNat = 0x61 + (i.toNat - 26) := by
  simp only [alpha]
  rw [if_neg (by omega), if_pos h.2, BitVec.toNat_ofNat]
  omega

/-- `0` to `9` at indices 52 to 61 (R111). -/
theorem toNat_alpha_of_digit (v : Variant) {i : Sym} (h : 52 ≤ i.toNat ∧ i.toNat ≤ 61) :
    (alpha v i).toNat = 0x30 + (i.toNat - 52) := by
  simp only [alpha]
  rw [if_neg (by omega), if_neg (by omega), if_pos h.2, BitVec.toNat_ofNat]
  omega

/-- The codes of `A` to `Z` (R116). -/
theorem rev_of_upper (v : Variant) {c : Byte} (h : 0x41 ≤ c.toNat ∧ c.toNat ≤ 0x5A) :
    rev v c = some (BitVec.ofNat 6 (c.toNat - 0x41)) := by
  simp only [rev]
  rw [if_pos h]

/-- The codes of `a` to `z` (R116). -/
theorem rev_of_lower (v : Variant) {c : Byte} (h : 0x61 ≤ c.toNat ∧ c.toNat ≤ 0x7A) :
    rev v c = some (BitVec.ofNat 6 (c.toNat - 0x61 + 26)) := by
  simp only [rev]
  rw [if_neg (by omega), if_pos h]

/-- The codes of `0` to `9` (R116). -/
theorem rev_of_digit (v : Variant) {c : Byte} (h : 0x30 ≤ c.toNat ∧ c.toNat ≤ 0x39) :
    rev v c = some (BitVec.ofNat 6 (c.toNat - 0x30 + 52)) := by
  simp only [rev]
  rw [if_neg (by omega), if_neg (by omega), if_pos h]

/-- The two look-ups of a variant's own characters, at indices 62 and 63 (R111, R116). -/
theorem rev_alphaTail (v : Variant) : rev v (alphaTail v).1 = some 62#6 ∧ rev v (alphaTail v).2 = some 63#6 := by
  cases v <;> decide

/-! ### The two look-ups together -/

/-- REV finds each entry of ALPHA at its index (R122). -/
theorem rev_alpha (v : Variant) (i : Sym) : rev v (alpha v i) = some i := by
  obtain h | h | h | h | h : i.toNat ≤ 25 ∨ (26 ≤ i.toNat ∧ i.toNat ≤ 51) ∨ (52 ≤ i.toNat ∧ i.toNat ≤ 61) ∨
      i = 62#6 ∨ i = 63#6 := by bv_omega
  · have hc := toNat_alpha_of_upper v h
    rw [rev_of_upper v (by omega)]
    exact congrArg some (by bv_omega)
  · have hc := toNat_alpha_of_lower v h
    rw [rev_of_lower v (by omega)]
    exact congrArg some (by bv_omega)
  · have hc := toNat_alpha_of_digit v h
    rw [rev_of_digit v (by omega)]
    exact congrArg some (by bv_omega)
  · exact h ▸ (rev_alphaTail v).1
  · exact h ▸ (rev_alphaTail v).2

/-- The value that REV gives is the index of an entry of ALPHA with that code (R115). -/
theorem alpha_of_rev {v : Variant} {c : Byte} {i : Sym} (h : rev v c = some i) : alpha v i = c := by
  simp only [rev] at h
  split_ifs at h with hu hl hd h62 h63 <;> cases h <;> apply BitVec.eq_of_toNat_eq
  · rw [toNat_alpha_of_upper v (by bv_omega)]
    bv_omega
  · rw [toNat_alpha_of_lower v (by bv_omega)]
    bv_omega
  · rw [toNat_alpha_of_digit v (by bv_omega)]
    bv_omega
  · exact congrArg _ h62.symm
  · exact congrArg _ h63.symm

/-- Up to index 61 an entry does not depend on the variant (R113). -/
theorem alpha_eq_alpha_of_le_61 (v w : Variant) {i : Sym} (h : i.toNat ≤ 61) : alpha v i = alpha w i := by
  simp only [alpha, if_pos h]

end Sys2Proof.Machine
end

section
/-! PROOFS. The statements on the two tables. -/

namespace Sys2Proof.Proofs

open Sys2Proof Sys2Proof.Machine

/-- Settles O5: the 64 look-ups of each variant are evaluated. -/
theorem alphaHoldsTheListedCodes : Obligations.AlphaHoldsTheListedCodes :=
  ⟨by decide, by decide⟩

/-- Settles O6: the look-ups undo each other; a code with a value would be the entry at that value. -/
theorem revInvertsAlpha : Obligations.RevInvertsAlpha := by
  refine fun v => ⟨rev_alpha v, fun c i => alpha_of_rev, fun c hc => ?_⟩
  cases h : rev v c with
  | none => rfl
  | some i => exact absurd (alpha_of_rev h) (hc i)

/-- Settles O7: the entries up to 61 never reach the variant's own characters, and those four are compared. -/
theorem variantsDifferOnlyAt62And63 : Obligations.VariantsDifferOnlyAt62And63 :=
  ⟨fun _ h => alpha_eq_alpha_of_le_61 .std .url h, by decide⟩

end Sys2Proof.Proofs
end

section
/-! SUPPORT. The encoder's step as one function of the latched unit, branch by branch in the slices of the group word
(R88, R141 to R147), the encoder over the items of a message while the host rewrites ENC_CTRL, and the padding and the
length of `Encode` (R133, R136). -/

namespace Sys2Proof.Machine

/-! ### The branches of the encoder's step -/

/-- The row DATA: the latched unit takes the byte (R141 to R144). -/
theorem exec_encInData_next {s : State} (h : s.enc.cnt ≠ 3#2) (b : Byte) :
    exec (.encInData b) s = .next (s.setEnc ((encLatch s).takeByte b)) :=
  (exec_encInData b s).trans (encItem_data b h)

/-- The row END: the latched unit finishes its message (R141, R145 to R147). -/
theorem exec_encInEnd_next {s : State} (h : s.enc.cnt ≠ 3#2) (d : Byte) :
    exec (.encInEnd d) s = .next (s.setEnc (encLatch s).finish) :=
  (exec_encInEnd d s).trans (encItem_end d h)

theorem EncUnit.takeByte_of_cnt_zero {e : EncUnit} (h : e.cnt = 0#2) (b : Byte) :
    e.takeByte b = { e with b1 := b, cnt := 1#2 } := by
  simp [takeByte, h]

theorem EncUnit.takeByte_of_cnt_one {e : EncUnit} (h : e.cnt = 1#2) (b : Byte) :
    e.takeByte b = { e with b2 := b, cnt := 2#2 } := by
  simp [takeByte, h]

theorem EncUnit.takeByte_of_cnt_two {e : EncUnit} (h : e.cnt = 2#2) (b : Byte) :
    e.takeByte b = { e.emit (group3Items e.cfgV e.b1 e.b2 b) with cnt := 0#2 } := by
  simp [takeByte, h]

theorem EncUnit.finish_of_cnt_zero {e : EncUnit} (h : e.cnt = 0#2) : e.finish = (e.emit [0x200#10]).idle := by
  simp [finish, held, h, encodeMsg, encGroups]

theorem EncUnit.finish_of_cnt_one {e : EncUnit} (h : e.cnt = 1#2) :
    e.finish = (e.emit (group1Items e.cfgV e.cfgP e.b1 ++ [0x200#10])).idle := by
  simp [finish, held, h, encodeMsg_group1]

theorem EncUnit.finish_of_cnt_two {e : EncUnit} (h : e.cnt = 2#2) :
    e.finish = (e.emit (group2Items e.cfgV e.cfgP e.b1 e.b2 ++ [0x200#10])).idle := by
  simp [finish, held, h, encodeMsg_group2]

@[simp] theorem EncUnit.finish_cfgV (e : EncUnit) : e.finish.cfgV = e.cfgV := rfl
@[simp] theorem EncUnit.finish_cfgP (e : EncUnit) : e.finish.cfgP = e.cfgP := rfl

@[simp] theorem encLatch_cfgV (s : State) : (encLatch s).cfgV = encVariant s := by rw [encLatch_eq]
@[simp] theorem encLatch_cfgP (s : State) : (encLatch s).cfgP = encPad s := by rw [encLatch_eq]
@[simp] theorem encLatch_outWait (s : State) : (encLatch s).outWait = s.enc.outWait := by rw [encLatch_eq]

/-- The message start of a busy encoder does not read ENC_CTRL (R141). -/
theorem encLatch_setEncCtrl {s : State} (h : s.enc.busy = true) (n : BitVec 2) :
    encLatch (s.setEncCtrl n) = encLatch s := by
  simp [encLatch, h]

/-- An encoder item that answers a next state met a legal `cnt` (R26, R43). -/
theorem cnt_ne_three_of_exec {i : Instr} {b : Byte} {s t : State} (hi : i = .encInData b ∨ i = .encInEnd b)
    (h : exec i s = .next t) : s.enc.cnt ≠ 3#2 := by
  intro hcnt
  obtain ⟨hdata, hend⟩ := Proofs.encStopsAtUnreachableCnt s b hcnt
  obtain rfl | rfl := hi
  · cases hdata.symm.trans h
  · cases hend.symm.trans h

/-- At a legal `cnt` an encoder item is one function of the latched unit, which keeps what was latched (R141). -/
theorem exec_encIn_of_latch {i : Instr} {b : Byte} (hi : i = .encInData b ∨ i = .encInEnd b) :
    ∃ f : EncUnit → EncUnit, (∀ s : State, s.enc.cnt ≠ 3#2 → exec i s = .next (s.setEnc (f (encLatch s)))) ∧
      ∀ e, (f e).cfgV = e.cfgV ∧ (f e).cfgP = e.cfgP ∧ (i = .encInData b → (f e).busy = e.busy) := by
  obtain rfl | rfl := hi
  · exact ⟨(·.takeByte b), fun _ h => exec_encInData_next h b, fun e => by simp⟩
  · exact ⟨EncUnit.finish, fun _ h => exec_encInEnd_next h b, fun e => by simp⟩

/-! ### The emitted groups as slices of the group word (R88, R89) -/

theorem group3Items_slices (v : Variant) (x y z : Byte) :
    let G : BitVec 24 := x ++ y ++ z
    group3Items v x y z = [outData (alpha v (G.extractLsb' 18 6)), outData (alpha v (G.extractLsb' 12 6)),
      outData (alpha v (G.extractLsb' 6 6)), outData (alpha v (G.extractLsb' 0 6))] := by
  intro G
  rw [group3Items, field1_slice x y z, field2_slice x y z, field3_slice x y z, field4_slice x y z]

theorem group2Items_slices (v : Variant) (p : Bool) (x y : Byte) :
    let G : BitVec 24 := x ++ y ++ 0x00#8
    group2Items v p x y = [outData (alpha v (G.extractLsb' 18 6)), outData (alpha v (G.extractLsb' 12 6)),
      outData (alpha v (G.extractLsb' 6 6))] ++ if p then [outData Config.padChar] else [] := by
  intro G
  rw [group2Items, field1_slice x y 0x00#8, field2_slice x y 0x00#8, field3_slice x y 0x00#8]

/-- The two absent bytes of a last group of one byte, together 16 zero bits (R89). -/
theorem group24_one_byte (x : Byte) : (x ++ 0x00#8 ++ 0x00#8 : BitVec 24) = x ++ 0x0000#16 :=
  BitVec.append_assoc (x₁ := x) (x₂ := 0x00#8) (x₃ := 0x00#8)

theorem group1Items_slices (v : Variant) (p : Bool) (x : Byte) :
    let G : BitVec 24 := x ++ 0x0000#16
    group1Items v p x = [outData (alpha v (G.extractLsb' 18 6)), outData (alpha v (G.extractLsb' 12 6))] ++
      if p then [outData Config.padChar, outData Config.padChar] else [] := by
  intro G
  rw [group1Items, field1_slice x 0x00#8 0x00#8, field2_slice x 0x00#8 0x00#8, group24_one_byte]

/-! ### The encoder over the items of a message -/

/-- DATA items fed to the encoder leave it, once latched, as the bytes taken one by one would, whatever the host leaves
in ENC_CTRL; the feed goes on with the items after them (R141 to R144, R236). -/
theorem encFeed_data {s : State} (hcnt : s.enc.cnt ≠ 3#2) {x : List Byte} {ns : List (BitVec 2)}
    (hlen : ns.length = x.length) :
    ∃ t, (∀ rest, encFeed ((x.map inData).zip ns ++ rest) s = encFeed rest t) ∧
      encLatch t = x.foldl EncUnit.takeByte (encLatch s) ∧ t.enc.cnt ≠ 3#2 ∧ t.dec = s.dec := by
  induction x generalizing s ns with
  | nil => exact ⟨s, fun _ => by simp, rfl, hcnt, rfl⟩
  | cons b x ih =>
    cases ns with
    | nil => cases hlen
    | cons n ns =>
      obtain ⟨t, hfeed, hlatch, hframe⟩ := ih (s := (s.setEnc ((encLatch s).takeByte b)).setEncCtrl n)
        (EncUnit.takeByte_cnt _ b) (Nat.succ.inj hlen)
      refine ⟨t, fun rest => ?_, ?_, hframe⟩
      · simpa [encFeed, encItem_data b hcnt] using hfeed rest
      · rw [hlatch, encLatch_setEncCtrl (by simp), encLatch_setEnc (by simp)]
        rfl

/-- A byte taken either adds one to `cnt` and emits nothing, or completes three bytes held and emits four characters
(R142 to R144): four per byte in, three per character out. -/
theorem EncUnit.takeByte_emits {e : EncUnit} (h : e.cnt ≠ 3#2) (b : Byte) :
    ∃ chars : List Byte, (e.takeByte b).outWait = e.outWait ++ chars.map outData ∧
      3 * chars.length + 4 * (e.takeByte b).cnt.toNat = 4 * (e.cnt.toNat + 1) := by
  obtain h0 | h0 | h0 | h0 := cnt_cases e.cnt
  · exact ⟨[], by simp [takeByte_of_cnt_zero h0, h0]⟩
  · exact ⟨[], by simp [takeByte_of_cnt_one h0, h0]⟩
  · exact ⟨[alpha e.cfgV (field1 e.b1), alpha e.cfgV (field2 e.b1 e.b2), alpha e.cfgV (field3 e.b2 b),
      alpha e.cfgV (field4 b)], by simp [takeByte_of_cnt_two h0, h0, group3Items]⟩
  · exact absurd h0 h

/-- The balance of `takeByte_emits` over several bytes (R149). -/
theorem EncUnit.foldl_takeByte_emits {e : EncUnit} (h : e.cnt ≠ 3#2) (x : List Byte) :
    ∃ chars : List Byte, (x.foldl takeByte e).outWait = e.outWait ++ chars.map outData ∧
      3 * chars.length + 4 * (x.foldl takeByte e).cnt.toNat = 4 * (e.cnt.toNat + x.length) := by
  induction x generalizing e with
  | nil => exact ⟨[], by simp⟩
  | cons b x ih =>
    obtain ⟨first, hfirst, hcount⟩ := takeByte_emits h b
    obtain ⟨rest, hrest, hcounts⟩ := ih (takeByte_cnt e b)
    refine ⟨first ++ rest, by simp [hrest, hfirst], ?_⟩
    simp only [List.length_append, List.length_cons, List.foldl_cons]
    omega

/-! ### Padding and length of `Encode` -/

/-- The number of `=` characters after a text of `n` bytes (R133). -/
def padCount (n : Nat) : Nat := if n % 3 = 1 then 2 else if n % 3 = 2 then 1 else 0

theorem padCount_add_three (n : Nat) : padCount (n + 3) = padCount n := by simp [padCount]

theorem encodeMsg_cons3 (v : Variant) (p : Bool) (a b c : Byte) (x : List Byte) :
    encodeMsg v p (a :: b :: c :: x) =
      [alpha v (field1 a), alpha v (field2 a b), alpha v (field3 b c), alpha v (field4 c)] ++ encodeMsg v p x := by
  simp [encodeMsg, encGroups, encGroup]

/-- The padded text is the unpadded one and its `=` characters (R133). -/
theorem encodeMsg_padded (v : Variant) (x : List Byte) :
    encodeMsg v true x = encodeMsg v false x ++ List.replicate (padCount x.length) Config.padChar := by
  induction x using encGroups.induct with
  | case1 | case2 | case3 => rfl
  | case4 a b c x ih =>
    rw [encodeMsg_cons3, encodeMsg_cons3, ih, List.append_assoc]
    simp only [List.length_cons, padCount_add_three]

/-- Four characters for three bytes, rounded up (R136). -/
theorem length_encodeMsg_unpadded (v : Variant) (x : List Byte) :
    (encodeMsg v false x).length = (x.length * 4 + 2) / 3 := by
  induction x using encGroups.induct with
  | case1 | case2 | case3 => simp [encodeMsg, encGroups, encGroup]
  | case4 a b c x ih =>
    simp only [encodeMsg_cons3, List.length_append, List.length_cons, List.length_nil, ih]
    omega

/-- With padding whole groups of four (R136). -/
theorem length_encodeMsg_padded (v : Variant) (x : List Byte) :
    (encodeMsg v true x).length = (x.length + 2) / 3 * 4 := by
  rw [encodeMsg_padded, List.length_append, length_encodeMsg_unpadded, List.length_replicate, padCount]
  split_ifs <;> omega

/-- No alphabet has `=` (R119). -/
theorem rev_padChar (v : Variant) : rev v Config.padChar = none := by cases v <;> decide

theorem alpha_ne_padChar (v : Variant) (i : Sym) : alpha v i ≠ Config.padChar := by
  intro h
  cases (rev_alpha v i).symm.trans (h ▸ rev_padChar v)

/-- Without padding only entries of the alphabet appear (R133). -/
theorem padChar_notMem_encodeMsg (v : Variant) (x : List Byte) : Config.padChar ∉ encodeMsg v false x := by
  induction x using encGroups.induct with
  | case1 | case2 | case3 => simp [encodeMsg, encGroups, encGroup, (alpha_ne_padChar v _).symm]
  | case4 a b c x ih => simp [encodeMsg_cons3, (alpha_ne_padChar v _).symm, ih]

/-- `=` characters at the end change nothing about the decoding, under either variant (R119, R161). -/
theorem decodeMsg_append_pad (v : Variant) (t : List Byte) (n : Nat) :
    decodeMsg v (t ++ List.replicate n Config.padChar) = decodeMsg v t := by
  have h : decFilter v (t ++ List.replicate n Config.padChar) = decFilter v t := by
    rw [decFilter, List.filterMap_append, List.filterMap_replicate_of_none (rev_padChar v), List.append_nil, decFilter]
  rw [decodeMsg_eq, decodeMsg_eq, h]

end Sys2Proof.Machine
end

section
/-! PROOFS. The statements on the encoder. -/

namespace Sys2Proof.Proofs

open Sys2Proof Sys2Proof.Machine

/-- Settles O17: the latched unit takes the third byte, and the fields it looks up are the slices of the group word. -/
theorem encThirdByteEmitsGroup : Obligations.EncThirdByteEmitsGroup := by
  intro s b h G
  rw [exec_encInData_next (by simp [h]), EncUnit.takeByte_of_cnt_two (by simp [h]), group3Items_slices, encLatch_eq]
  rfl

/-- Settles O19: the latched unit finishes with the slices of its one byte and 16 zero bits. -/
theorem encEndAfterOneByte : Obligations.EncEndAfterOneByte := by
  intro s d h G
  rw [exec_encInEnd_next (by simp [h]), EncUnit.finish_of_cnt_one (by simp [h]), group1Items_slices, encLatch_eq]
  simp only [List.append_assoc]
  rfl

/-- Settles O20: the latched unit finishes with the slices of its two bytes and 8 zero bits. -/
theorem encEndAfterTwoBytes : Obligations.EncEndAfterTwoBytes := by
  intro s d h G
  rw [exec_encInEnd_next (by simp [h]), EncUnit.finish_of_cnt_two (by simp [h]), group2Items_slices, encLatch_eq]
  simp only [List.append_assoc]
  rfl

/-- Settles O38: the DATA items change nothing about what is due, and END hands it over. -/
theorem encoderStepsComputeEncode : Obligations.EncoderStepsComputeEncode := by
  intro s x d ns hbusy hcnt hlen
  obtain rfl | ⟨ns, n, rfl⟩ := ns.eq_nil_or_concat'
  · cases hlen
  have hlen : ns.length = x.length := by simpa using hlen
  obtain ⟨t, hfeed, hlatch, hlegal, hdec⟩ := encFeed_data (s := s) (by simp [hcnt]) hlen
  have hout := calc (encLatch t).finish.outWait
    _ = (x.foldl EncUnit.takeByte (encLatch s)).due [] := by rw [EncUnit.finish_outWait, hlatch]
    _ = (encLatch s).due x := EncUnit.foldl_takeByte_due (by simp [hcnt]) x
    _ = _ := encLatch_due_of_idle hcnt x
  refine ⟨(t.setEnc (encLatch t).finish).setEncCtrl n, ?_, ?_, rfl, rfl, hdec⟩
  · rw [encMessageItems, List.zip_append (by simp [hlen]), hfeed]
    simp [encFeed, encItem_end d hlegal]
  · simpa [encVariant, encPad, hbusy] using hout

/-- Settles O40: the bytes taken balance four to three with the characters out, and `cnt` is below 3. -/
theorem charactersAppearByGroup : Obligations.CharactersAppearByGroup := by
  intro s x ns _ hcnt hlen
  obtain ⟨t, hfeed, hlatch, hlegal, -⟩ := encFeed_data (s := s) (by simp [hcnt]) hlen
  obtain ⟨chars, hout, hcount⟩ := EncUnit.foldl_takeByte_emits (e := encLatch s) (by simp [hcnt]) x
  simp only [← hlatch, encLatch_outWait, encLatch_cnt, hcnt, BitVec.toNat_ofNat] at hout hcount
  have hlt : t.enc.cnt.toNat < 3 := by bv_omega
  exact ⟨t, chars, by simpa [encFeed] using hfeed [], by omega, hout, by omega⟩

/-- Settles O45: the padded text is the unpadded one with `=` characters at its end, which the filter drops. -/
theorem paddingInvariance : Obligations.PaddingInvariance := by
  intro v w x
  rw [encodeMsg_padded, decodeMsg_append_pad]

/-- Settles O46, from the padding of the text and the length of the unpadded text. -/
theorem encodeLengthLaw : Obligations.EncodeLengthLaw :=
  fun v x => ⟨length_encodeMsg_padded v x, length_encodeMsg_unpadded v x, encodeMsg_padded v x,
    padChar_notMem_encodeMsg v x⟩

/-- Settles O14: the step sees ENC_CTRL through the message start alone, and keeps what that latched. -/
theorem encMessageStartLatches : Obligations.EncMessageStartLatches := by
  intro s t b i hi ht
  have hcnt := cnt_ne_three_of_exec hi ht
  obtain ⟨f, hf, hkeep⟩ := exec_encIn_of_latch hi
  obtain ⟨hv, hp, hb⟩ := hkeep (encLatch s)
  cases (hf s hcnt).symm.trans ht
  rw [encLatch_cfgV] at hv
  rw [encLatch_cfgP] at hp
  refine ⟨fun hidle => ⟨hv.trans ?_, hp.trans ?_⟩, fun hbusy => ⟨hv.trans ?_, hp.trans ?_, fun n => ?_⟩,
    fun hdata => (hb hdata).trans (encLatch_busy s)⟩
  · simp [encVariant, hidle, variantOfBit]
  · simp [encPad, hidle]
  · simp [encVariant, hbusy]
  · simp [encPad, hbusy]
  · exact encLatch_setEncCtrl hbusy n ▸ hf (s.setEncCtrl n) hcnt

/-- Settles O15: the latched unit holds its first byte. -/
theorem encFirstByteHeld : Obligations.EncFirstByteHeld := by
  intro s b h
  rw [exec_encInData_next (by simp [h]), EncUnit.takeByte_of_cnt_zero (by simp [h]), encLatch_eq]
  rfl

/-- Settles O16: the latched unit holds its second byte. -/
theorem encSecondByteHeld : Obligations.EncSecondByteHeld := by
  intro s b h
  rw [exec_encInData_next (by simp [h]), EncUnit.takeByte_of_cnt_one (by simp [h]), encLatch_eq]
  rfl

/-- Settles O18: the latched unit finishes with nothing held. -/
theorem encEndWithoutRest : Obligations.EncEndWithoutRest := by
  intro s d h
  rw [exec_encInEnd_next (by simp [h]), EncUnit.finish_of_cnt_zero (by simp [h]), encLatch_eq]
  rfl

end Sys2Proof.Proofs
end

section
/-! SUPPORT. The decoder's step as one function of the latched unit, branch by branch (R171 to R180), the decoder over
the characters of a message while the host rewrites DEC_CTRL, and `Decode` of a text with foreign characters and of an
encoded text (R161, R184). -/

namespace Sys2Proof.Machine

/-! ### The branches of the decoder's step -/

/-- The row CHAR: the latched unit takes the character (R171 to R176). -/
theorem exec_decInChar_next (c : Byte) (s : State) :
    exec (.decInChar c) s = .next (s.setDec ((decLatch s).takeChar c)) :=
  (exec_decInChar c s).trans (decItem_char c s)

/-- The row END: the latched unit finishes its message (R171, R177 to R180). -/
theorem exec_decInEnd_next (b : Byte) (s : State) :
    exec (.decInEnd b) s = .next (s.setDec (decFinish (decLatch s))) :=
  (exec_decInEnd b s).trans (decItem_end b s)

/-- A foreign character is one that REV gives no value (R93). -/
theorem isSymbol_eq_false_iff (v : Variant) (c : Byte) : isSymbol v c = false ↔ rev v c = none := by
  simp [isSymbol]

theorem DecUnit.takeChar_of_foreign {d : DecUnit} {c : Byte} (h : rev d.cfgV c = none) : d.takeChar c = d := by
  rw [takeChar, h]

theorem DecUnit.takeChar_of_symbol {d : DecUnit} {c : Byte} {val : Sym} (h : rev d.cfgV c = some val) :
    d.takeChar c = decSymbol val d := by
  rw [takeChar, h]

theorem decSymbol_of_cnt_zero {d : DecUnit} (h : d.cnt = 0#2) (val : Sym) :
    decSymbol val d = { d with s1 := val, cnt := 1#2 } := by
  simp [decSymbol, h]

theorem decSymbol_of_cnt_one {d : DecUnit} (h : d.cnt = 1#2) (val : Sym) :
    decSymbol val d = { d with s2 := val, cnt := 2#2 } := by
  simp [decSymbol, h]

theorem decSymbol_of_cnt_two {d : DecUnit} (h : d.cnt = 2#2) (val : Sym) :
    decSymbol val d = { d with s3 := val, cnt := 3#2 } := by
  simp [decSymbol, h]

/-- The three bytes as slices of the quad word (R90, R176). -/
theorem decSymbol_of_cnt_three {d : DecUnit} (h : d.cnt = 3#2) (val : Sym) :
    let Q : BitVec 24 := d.s1 ++ d.s2 ++ d.s3 ++ val
    decSymbol val d =
      { d.emit [outData (Q.extractLsb' 16 8), outData (Q.extractLsb' 8 8), outData (Q.extractLsb' 0 8)] with
        cnt := 0#2 } := by
  intro Q
  rw [← pack1_slice, ← pack2_slice, ← pack3_slice]
  simp [decSymbol, h]

theorem decFinish_of_cnt_zero {d : DecUnit} (h : d.cnt = 0#2) : decFinish d = (d.emit [0x200#10]).idle := by
  simp [decFinish, malformed, errFlag, h]

/-- The byte in the bit form of R91 (R179). -/
theorem decFinish_of_cnt_two {d : DecUnit} (h : d.cnt = 2#2) :
    decFinish d = (d.emit [outData (d.s1 ++ d.s2.extractLsb' 4 2), 0x200#10]).idle := by
  simp [decFinish, malformed, errFlag, h, pack1_cat]

/-- The two bytes in the bit form of R91 (R180). -/
theorem decFinish_of_cnt_three {d : DecUnit} (h : d.cnt = 3#2) :
    decFinish d = (d.emit [outData (d.s1 ++ d.s2.extractLsb' 4 2),
      outData (d.s2.extractLsb' 0 4 ++ d.s3.extractLsb' 2 4), 0x200#10]).idle := by
  simp [decFinish, malformed, errFlag, h, pack1_cat, pack2_cat]

@[simp] theorem decFinish_cfgV (d : DecUnit) : (decFinish d).cfgV = d.cfgV := by
  obtain ⟨ws, h⟩ := decFinish_eq_idle d
  rw [h]
  rfl

@[simp] theorem decLatch_cfgV (s : State) : (decLatch s).cfgV = decVariant s := by rw [decLatch_eq]
@[simp] theorem decLatch_cnt (s : State) : (decLatch s).cnt = s.dec.cnt := by rw [decLatch_eq]
@[simp] theorem decLatch_outWait (s : State) : (decLatch s).outWait = s.dec.outWait := by rw [decLatch_eq]

/-- The message start of a busy decoder does not read DEC_CTRL (R171). -/
theorem decLatch_setDecCtrl {s : State} (h : s.dec.busy = true) (n : BitVec 1) :
    decLatch (s.setDecCtrl n) = decLatch s := by
  simp [decLatch, h]

/-- A symbol always moves `cnt` (R173 to R176). -/
theorem decSymbol_cnt_ne (val : Sym) (d : DecUnit) : (decSymbol val d).cnt ≠ d.cnt := by
  obtain h | h | h | h := cnt_cases d.cnt
  · simp [decSymbol_of_cnt_zero h, h]
  · simp [decSymbol_of_cnt_one h, h]
  · simp [decSymbol_of_cnt_two h, h]
  · simp [decSymbol_of_cnt_three h, h]

/-- A character is counted exactly when it is a symbol of the latched variant (R172 to R176). -/
theorem DecUnit.takeChar_cnt_eq_iff (d : DecUnit) (c : Byte) :
    (d.takeChar c).cnt = d.cnt ↔ isSymbol d.cfgV c = false := by
  rw [isSymbol_eq_false_iff]
  cases h : rev d.cfgV c with
  | none => simp [takeChar_of_foreign h]
  | some val => simp [takeChar_of_symbol h, decSymbol_cnt_ne]

/-- A decoder item is one function of the latched unit, which keeps what was latched (R171). -/
theorem exec_decIn_of_latch {i : Instr} {c : Byte} (hi : i = .decInChar c ∨ i = .decInEnd c) :
    ∃ f : DecUnit → DecUnit, (∀ s : State, exec i s = .next (s.setDec (f (decLatch s)))) ∧
      ∀ d, (f d).cfgV = d.cfgV ∧ (i = .decInChar c → f d = d.takeChar c) := by
  obtain rfl | rfl := hi
  · exact ⟨(·.takeChar c), exec_decInChar_next c, fun d => by simp⟩
  · exact ⟨decFinish, exec_decInEnd_next c, fun d => by simp⟩

/-! ### The decoder over the characters of a message -/

/-- CHAR items fed to the decoder leave it, once latched, as the characters taken one by one would, whatever the host
leaves in DEC_CTRL; the feed goes on with the items after them (R171 to R176, R236). -/
theorem decFeed_chars {x : List Byte} {ns : List (BitVec 1)} (hlen : ns.length = x.length) (s : State) :
    ∃ t, (∀ rest, decFeed ((x.map inData).zip ns ++ rest) s = decFeed rest t) ∧
      decLatch t = x.foldl DecUnit.takeChar (decLatch s) ∧ t.enc = s.enc := by
  induction x generalizing s ns with
  | nil => exact ⟨s, fun _ => by simp, rfl, rfl⟩
  | cons c x ih =>
    cases ns with
    | nil => cases hlen
    | cons n ns =>
      obtain ⟨t, hfeed, hlatch, henc⟩ :=
        ih (Nat.succ.inj hlen) ((s.setDec ((decLatch s).takeChar c)).setDecCtrl n)
      refine ⟨t, fun rest => ?_, ?_, henc⟩
      · simpa [decFeed, decItem_char] using hfeed rest
      · rw [hlatch, decLatch_setDecCtrl (by simp), decLatch_setDec (by simp)]
        rfl

/-- A symbol either adds one to `cnt` and emits nothing, or completes three symbols held and emits three bytes (R173 to
R176): three per symbol in, four per byte out. -/
theorem decSymbol_emits (val : Sym) (d : DecUnit) :
    ∃ bytes : List Byte, (decSymbol val d).outWait = d.outWait ++ bytes.map outData ∧
      4 * bytes.length + 3 * (decSymbol val d).cnt.toNat = 3 * (d.cnt.toNat + 1) := by
  obtain h | h | h | h := cnt_cases d.cnt
  · exact ⟨[], by simp [decSymbol_of_cnt_zero h, h]⟩
  · exact ⟨[], by simp [decSymbol_of_cnt_one h, h]⟩
  · exact ⟨[], by simp [decSymbol_of_cnt_two h, h]⟩
  · exact ⟨[pack1 d.s1 d.s2, pack2 d.s2 d.s3, pack3 d.s3 val], by simp [decSymbol, h]⟩

/-- The balance of `decSymbol_emits` over several characters, of which only the symbols count (R161, R186). -/
theorem DecUnit.foldl_takeChar_emits (d : DecUnit) (x : List Byte) :
    ∃ bytes : List Byte, (x.foldl takeChar d).outWait = d.outWait ++ bytes.map outData ∧
      4 * bytes.length + 3 * (x.foldl takeChar d).cnt.toNat =
        3 * (d.cnt.toNat + (decFilter d.cfgV x).length) := by
  induction x generalizing d with
  | nil => exact ⟨[], by simp [decFilter]⟩
  | cons c x ih =>
    cases h : rev d.cfgV c with
    | none => simpa [takeChar_of_foreign h, decFilter, h] using ih d
    | some val =>
      obtain ⟨first, hfirst, hcount⟩ := decSymbol_emits val d
      obtain ⟨rest, hrest, hcounts⟩ := ih (decSymbol val d)
      rw [decSymbol_cfgV] at hcounts
      have hfilter : decFilter d.cfgV (c :: x) = val :: decFilter d.cfgV x := List.filterMap_cons_some h
      refine ⟨first ++ rest, by simp [takeChar_of_symbol h, hrest, hfirst], ?_⟩
      rw [hfilter, List.foldl_cons, takeChar_of_symbol h, List.length_append, List.length_cons]
      omega

/-! ### `Decode` of a text with a foreign character, and of an encoded text -/

/-- The filter drops a foreign character wherever it stands (R161). -/
theorem decFilter_foreign {v : Variant} {c : Byte} (h : isSymbol v c = false) (t1 t2 : List Byte) :
    decFilter v (t1 ++ c :: t2) = decFilter v (t1 ++ t2) := by
  rw [isSymbol_eq_false_iff] at h
  simp [decFilter, h]

/-- The filter gives back the four fields of a whole group (R122, R133). -/
theorem decFilter_encodeMsg_cons3 (v : Variant) (p : Bool) (a b c : Byte) (x : List Byte) :
    decFilter v (encodeMsg v p (a :: b :: c :: x)) =
      field1 a :: field2 a b :: field3 b c :: field4 c :: decFilter v (encodeMsg v p x) := by
  simp [encodeMsg_cons3, decFilter, rev_alpha]

/-- The filter gives back the three fields of a last group of two bytes and drops its padding (R119, R133). -/
theorem decFilter_encodeMsg_two (v : Variant) (p : Bool) (a b : Byte) :
    decFilter v (encodeMsg v p [a, b]) = [field1 a, field2 a b, field3 b 0x00#8] := by
  cases p <;> simp [encodeMsg, encGroups, encGroup, decFilter, rev_alpha, rev_padChar]

/-- The filter gives back the two fields of a last group of one byte and drops its padding (R119, R133). -/
theorem decFilter_encodeMsg_one (v : Variant) (p : Bool) (a : Byte) :
    decFilter v (encodeMsg v p [a]) = [field1 a, field2 a 0x00#8] := by
  cases p <;> simp [encodeMsg, encGroups, encGroup, decFilter, rev_alpha, rev_padChar]

/-- The symbols of an encoded text pack into the bytes they were cut from, and none of them stands alone (R184). -/
theorem symBytes_and_symErr_decFilter_encodeMsg (v : Variant) (p : Bool) (x : List Byte) :
    symBytes (decFilter v (encodeMsg v p x)) = x ∧ symErr (decFilter v (encodeMsg v p x)) = Config.errNone := by
  induction x using encGroups.induct with
  | case1 => exact ⟨rfl, rfl⟩
  | case2 a =>
    rw [decFilter_encodeMsg_one]
    exact ⟨by simp [symBytes, decGroups, decGroup, pack1_fields], rfl⟩
  | case3 a b =>
    rw [decFilter_encodeMsg_two]
    exact ⟨by simp [symBytes, decGroups, decGroup, pack1_fields, pack2_fields], rfl⟩
  | case4 a b c x ih =>
    obtain ⟨hbytes, herr⟩ := ih
    rw [decFilter_encodeMsg_cons3, symBytes_quad, symErr_quad, hbytes, pack1_fields, pack2_fields, pack3_fields]
    exact ⟨rfl, herr⟩

end Sys2Proof.Machine
end

section
/-! PROOFS. The statements on the decoder. -/

namespace Sys2Proof.Proofs

open Sys2Proof Sys2Proof.Machine

/-- Settles O25: the latched unit takes the fourth symbol, and the bytes it packs are the slices of the quad word. -/
theorem decFourthSymbolEmitsQuad : Obligations.DecFourthSymbolEmitsQuad := by
  intro s c val hval h Q
  rw [exec_decInChar_next, DecUnit.takeChar_of_symbol (by simpa using hval), decSymbol_of_cnt_three (by simpa using h),
    decLatch_eq]
  rfl

/-- Settles O26: the latched unit finishes with nothing held. -/
theorem decEndWithoutRest : Obligations.DecEndWithoutRest := by
  intro s d h
  rw [exec_decInEnd_next, decFinish_of_cnt_zero (by simpa using h), decLatch_eq]
  rfl

/-- Settles O28: the latched unit finishes with two symbols held. -/
theorem decEndAfterTwoSymbols : Obligations.DecEndAfterTwoSymbols := by
  intro s d h
  rw [exec_decInEnd_next, decFinish_of_cnt_two (by simpa using h), decLatch_eq]
  rfl

/-- Settles O29: the latched unit finishes with three symbols held. -/
theorem decEndAfterThreeSymbols : Obligations.DecEndAfterThreeSymbols := by
  intro s d h
  rw [exec_decInEnd_next, decFinish_of_cnt_three (by simpa using h), decLatch_eq]
  rfl

/-- Settles O30: the bit form of the last bytes names only the bits that are kept. -/
theorem discardedBitsIgnored : Obligations.DiscardedBitsIgnored := by
  refine fun s d x2 x3 => ⟨fun h hx => ?_, fun h hx => ?_⟩
  · exact ⟨_, _, decEndAfterTwoSymbols s d h, decEndAfterTwoSymbols { s with dec := { s.dec with s2 := x2 } } d h,
      by simp only [hx]⟩
  · exact ⟨_, _, decEndAfterThreeSymbols s d h, decEndAfterThreeSymbols { s with dec := { s.dec with s3 := x3 } } d h,
      by simp only [hx]⟩

/-- Settles O39: the latched unit takes the characters one by one, and what it has appended at END is what `Decode`
says of them. -/
theorem decoderStepsComputeDecode : Obligations.DecoderStepsComputeDecode := by
  intro s x d ns hbusy hcnt hlen
  obtain rfl | ⟨ns, n, rfl⟩ := ns.eq_nil_or_concat'
  · cases hlen
  have hlen : ns.length = x.length := by simpa using hlen
  obtain ⟨t, hfeed, hlatch, henc⟩ := decFeed_chars hlen s
  obtain ⟨hout, -, hbusy', hcnt', -⟩ := decLatch_message hcnt x (decLatch s).inp
  have hmsg : decFinish (decLatch t) =
      decFinish (x.foldl DecUnit.takeChar ((decLatch s).setInp (decLatch s).inp)) := congrArg decFinish hlatch
  rw [← hmsg] at hout hbusy' hcnt'
  have hvar : decVariant s = variantOfBit (s.decCtrl.getLsbD 0) := by simp [decVariant, hbusy]
  refine ⟨(t.setDec (decFinish (decLatch t))).setDecCtrl n, _, ?_, hout, hvar ▸ decEmits_symBytes _ x, hbusy', hcnt',
    henc⟩
  rw [decMessageItems, List.zip_append (by simp [hlen]), hfeed]
  simp [decFeed, decItem_end]

/-- Settles O41: the symbols taken balance three to four with the bytes out, and `cnt` is below 4. -/
theorem bytesAppearByQuad : Obligations.BytesAppearByQuad := by
  intro s x ns hbusy hcnt hlen
  have hvar : decVariant s = variantOfBit (s.decCtrl.getLsbD 0) := by simp [decVariant, hbusy]
  obtain ⟨t, hfeed, hlatch, -⟩ := decFeed_chars hlen s
  obtain ⟨bytes, hout, hcount⟩ := (decLatch s).foldl_takeChar_emits x
  simp only [← hlatch, decLatch_outWait, decLatch_cnt, decLatch_cfgV, hcnt, hvar, BitVec.toNat_ofNat] at hout hcount
  have hlt : t.dec.cnt.toNat < 4 := t.dec.cnt.isLt
  exact ⟨t, bytes, by simpa [decFeed] using hfeed [], by omega, hout, by omega⟩

/-- Settles O44: the symbols of the encoded text pack into its bytes, without the error. -/
theorem decodeInvertsEncode : Obligations.DecodeInvertsEncode := by
  intro v p x
  obtain ⟨hbytes, herr⟩ := symBytes_and_symErr_decFilter_encodeMsg v p x
  rw [decodeMsg_eq, hbytes, herr]
  rfl

/-- Settles O47: the `err` bit decides which of the two results it is, and the length is that of the packed symbols. -/
theorem decodeLengthLaw : Obligations.DecodeLengthLaw := by
  refine fun v t => ⟨fun h => ?_, fun h => ⟨_, ?_, symBytes_length (decFilter v t)⟩⟩
  · rw [decodeMsg_eq, symErr, if_pos h]
    rfl
  · rw [decodeMsg_eq, symErr, if_neg h]
    rfl

/-- Settles O48: the two texts have the same symbols. -/
theorem foreignCharactersAbsent : Obligations.ForeignCharactersAbsent := by
  intro v t1 t2 c h
  rw [decodeMsg_eq, decodeMsg_eq, decFilter_foreign h]

/-- Settles O22: the step sees DEC_CTRL through the message start alone, and keeps what that latched. -/
theorem decMessageStartLatches : Obligations.DecMessageStartLatches := by
  intro s c i hi
  obtain ⟨f, hf, hkeep⟩ := exec_decIn_of_latch hi
  obtain ⟨hv, hchar⟩ := hkeep (decLatch s)
  rw [decLatch_cfgV] at hv
  refine ⟨_, hf s, fun hidle => ⟨hv.trans ?_, fun hc => ?_⟩, fun hbusy => ⟨hv.trans ?_, fun n => ?_⟩, fun hc => ?_⟩
  · simp [decVariant, hidle, variantOfBit]
  · simpa [hchar hc] using (decLatch s).takeChar_cnt_eq_iff c
  · simp [decVariant, hbusy]
  · exact decLatch_setDecCtrl hbusy n ▸ hf (s.setDecCtrl n)
  · simp [hchar hc]

/-- Settles O23: the latched unit takes the character and stays as it is. -/
theorem decForeignDropped : Obligations.DecForeignDropped := by
  intro s c h
  rw [isSymbol_eq_false_iff] at h
  rw [exec_decInChar_next, DecUnit.takeChar_of_foreign (by simpa using h), decLatch_eq]
  rfl

/-- Settles O24: the latched unit holds the symbol in the register that `cnt` names. -/
theorem decSymbolHeld : Obligations.DecSymbolHeld := by
  intro s c val hval
  have hstep : exec (.decInChar c) s = .next (s.setDec (decSymbol val (decLatch s))) := by
    rw [exec_decInChar_next, DecUnit.takeChar_of_symbol (by simpa using hval)]
  rw [hstep]
  refine ⟨fun h => ?_, fun h => ?_, fun h => ?_⟩
  · rw [decSymbol_of_cnt_zero (by simpa using h), decLatch_eq]
    rfl
  · rw [decSymbol_of_cnt_one (by simpa using h), decLatch_eq]
    rfl
  · rw [decSymbol_of_cnt_two (by simpa using h), decLatch_eq]
    rfl

end Sys2Proof.Proofs
end

section
/-! SUPPORT. The exception: which items each step appends, with the `err` bit of each (R36, R201, R204, R207). The
encoder's items have `err = 0`, the decoder's BYTE items too, and its END item has the status flag. -/

namespace Sys2Proof.Machine

/-! ### The `err` bit of an output item -/

/-- A CHAR or BYTE item has `err = 0` (R86, R87). -/
theorem outData_err (b : Byte) : (outData b).getLsbD 8 = false := by
  rw [← BitVec.testBit_toNat, outData_toNat]
  exact byte_bit8 b

theorem err_of_mem_map_outData {bytes : List Byte} {w : OutItem} (h : w ∈ bytes.map outData) :
    w.getLsbD 8 = false := by
  obtain ⟨b, -, rfl⟩ := List.mem_map.1 h
  exact outData_err b

/-- No item the encoder can produce has `err = 1` (R86, R207). -/
theorem err_of_encOutOk {w : OutItem} (h : encOutOk w) : w.getLsbD 8 = false := by
  obtain rfl | ⟨c, rfl, -⟩ := h
  · decide
  · exact outData_eq c ▸ outData_err c

/-- BYTE items are not END(1) (R87). -/
theorem end1_notMem_map_outData (bytes : List Byte) : 0x300#10 ∉ bytes.map outData :=
  fun h => absurd (err_of_mem_map_outData h) (by decide)

/-- An END item with `err = 1` is END(1), and one with `err = 0` is not (R87). -/
theorem end1_eq_outEnd_iff (err : BitVec 1) : 0x300#10 = outEnd err ↔ err = Config.errMalformed := by
  revert err; decide

/-- The flag is `MalformedEncoding` at one symbol held and at no other count (R201, R202). -/
theorem errFlag_eq_errMalformed_iff (d : DecUnit) : errFlag d = Config.errMalformed ↔ d.cnt = 1#2 := by
  simp [errFlag, malformed, Config.errMalformed, Config.errNone]

/-! ### What the decoder's items append -/

/-- A character appends BYTE items only (R172 to R176). -/
theorem DecUnit.takeChar_emits_bytes (d : DecUnit) (c : Byte) :
    ∃ bytes : List Byte, (d.takeChar c).outWait = d.outWait ++ bytes.map outData := by
  obtain ⟨bytes, hout, -⟩ := d.foldl_takeChar_emits [c]
  exact ⟨bytes, hout⟩

/-- END appends BYTE items and one END item with the status flag (R36, R177 to R180). -/
theorem decFinish_emits (d : DecUnit) :
    ∃ bytes : List Byte, (decFinish d).outWait = d.outWait ++ (bytes.map outData ++ [outEnd (errFlag d)]) := by
  simp only [decFinish]
  split_ifs
  · exact ⟨[], rfl⟩
  · exact ⟨[], rfl⟩
  · exact ⟨[pack1 d.s1 d.s2], rfl⟩
  · exact ⟨[pack1 d.s1 d.s2, pack2 d.s2 d.s3], rfl⟩

/-- With one symbol held END(1) is emitted alone (R178, R204). -/
theorem decFinish_of_cnt_one {d : DecUnit} (h : d.cnt = 1#2) : decFinish d = (d.emit [0x300#10]).idle := by
  simp [decFinish, malformed, raiseMalformed, errFlag, h]

/-! ### What a next state adds to the output streams -/

/-- An encoder item that answers a next state met a legal `cnt` (R26, R43). -/
theorem cnt_ne_three_of_encItem {w : InItem} {s t : State} (h : encItem w s = .next t) : s.enc.cnt ≠ 3#2 := by
  obtain ⟨b, rfl⟩ | ⟨d, rfl⟩ := inItem_cases w
  · exact cnt_ne_three_of_exec (.inl rfl) ((exec_encInData b s).trans h)
  · exact cnt_ne_three_of_exec (.inr rfl) ((exec_encInEnd d s).trans h)

/-- An encoder over a stream that holds an item, if it answers a next state, met a legal `cnt` (R26, R43). -/
theorem cnt_ne_three_of_encMessage {w : InItem} {rest : List InItem} {s t : State}
    (h : encMessage (w :: rest) s = .next t) : s.enc.cnt ≠ 3#2 := by
  cases hw : encItem w (s.setEnc { s.enc with inp := rest }) with
  | next u => exact cnt_ne_three_of_encItem (s := s.setEnc { s.enc with inp := rest }) hw
  | fault | refused => simp [encMessage, hw] at h

/-- An encoder item appends items with `err = 0` and leaves the decoder alone (R207). -/
theorem encItem_out {w : InItem} {s t : State} (h : encItem w s = .next t) :
    ∃ new, t.enc.out = s.enc.out ++ new ∧ (∀ w ∈ new, w.getLsbD 8 = false) ∧ t.dec = s.dec := by
  obtain ⟨e, new, he, -, taken, -, -, wait, ok⟩ := encItem_next w s (cnt_ne_three_of_encItem h)
  cases he.symm.trans h
  exact ⟨new, by simp [EncUnit.out, taken, wait], fun w hw => err_of_encOutOk (ok w hw), rfl⟩

/-- An encoder operation appends items with `err = 0` and leaves the decoder alone; where no item waits, `cnt` may be
any value (R207). -/
theorem encOperation_out {n : BitVec 2} {s t : State} (h : encOperation n s = .next t) :
    ∃ new, t.enc.out = s.enc.out ++ new ∧ (∀ w ∈ new, w.getLsbD 8 = false) ∧ t.dec = s.dec := by
  rw [encOperation] at h
  cases hinp : s.enc.inp with
  | nil =>
    rw [hinp] at h
    cases h
    exact ⟨[], by simp⟩
  | cons w rest =>
    rw [hinp] at h
    obtain ⟨e, new, he, -, taken, -, -, wait, ok⟩ :=
      encMessage_next _ (s.setEncCtrl n) hinp (cnt_ne_three_of_encMessage h)
    cases he.symm.trans h
    exact ⟨new, by simp [EncUnit.out, taken, wait], fun w hw => err_of_encOutOk (ok w hw), rfl⟩

/-- A decoder operation appends to the decoder's output stream and leaves the encoder alone (R38, R207). -/
theorem decOperation_out {n : BitVec 1} {s t : State} (h : decOperation n s = .next t) :
    ∃ new, t.dec.out = s.dec.out ++ new ∧ t.enc = s.enc := by
  obtain ⟨d, new, hd, -, taken, -, wait, -⟩ := decMessage_next s.dec.inp (s.setDecCtrl n) rfl
  cases hd.symm.trans h
  exact ⟨new, by simp [DecUnit.out, taken, wait], rfl⟩

/-- A decoder item appends to the decoder's output stream and leaves the encoder alone (R38, R207). -/
theorem decItem_out {w : InItem} {s t : State} (h : decItem w s = .next t) :
    ∃ new, t.dec.out = s.dec.out ++ new ∧ t.enc = s.enc := by
  obtain ⟨d, new, hd, -, taken, -, wait, -⟩ := decItem_next w s
  cases hd.symm.trans h
  exact ⟨new, by simp [DecUnit.out, taken, wait], rfl⟩

/-- A decoder character appends items with `err = 0` and leaves the encoder alone (R201, R207). -/
theorem exec_decInChar_out {c : Byte} {s t : State} (h : exec (.decInChar c) s = .next t) :
    ∃ new, t.dec.out = s.dec.out ++ new ∧ (∀ w ∈ new, w.getLsbD 8 = false) ∧ t.enc = s.enc := by
  obtain ⟨bytes, hout⟩ := (decLatch s).takeChar_emits_bytes c
  have htaken : (decLatch s).outTaken = s.dec.outTaken := by rw [decLatch_eq]
  cases (exec_decInChar_next c s).symm.trans h
  exact ⟨bytes.map outData, by simp [DecUnit.out, hout, htaken], fun _ => err_of_mem_map_outData, rfl⟩

end Sys2Proof.Machine
end

section
/-! PROOFS. The statements on the exception and on the consumer. -/

namespace Sys2Proof.Proofs

open Sys2Proof Sys2Proof.Machine

/-- Settles O31: the one END item that END appends has the status flag, and every other item is a BYTE. -/
theorem errorExactlyAtOneSymbol : Obligations.ErrorExactlyAtOneSymbol := by
  refine fun s d => ⟨?_, ?_⟩
  · obtain ⟨bytes, hout⟩ := decFinish_emits (decLatch s)
    rw [decLatch_outWait] at hout
    refine ⟨_, _, exec_decInEnd_next d s, hout, ?_⟩
    rw [List.mem_append, List.mem_singleton, or_iff_right (end1_notMem_map_outData bytes), end1_eq_outEnd_iff,
      errFlag_eq_errMalformed_iff, decLatch_cnt]
  · obtain ⟨bytes, hout⟩ := (decLatch s).takeChar_emits_bytes d
    rw [decLatch_outWait] at hout
    exact ⟨_, _, exec_decInChar_next d s, hout, end1_notMem_map_outData bytes⟩

/-- Settles O32: an encoder row appends to the encoder's stream only, items with `err = 0`; a decoder row to the
decoder's only, and a character no error; every other row leaves both units alone. -/
theorem onlyDecoderEndRaises : Obligations.OnlyDecoderEndRaises := by
  intro i s t h
  cases i with
  | encStdNopad | encUrlNopad | encStdPad | encUrlPad =>
    obtain ⟨new, hout, herr, hdec⟩ := encOperation_out h
    exact ⟨new, [], hout, by simp [hdec], herr, by simp⟩
  | encInData b =>
    obtain ⟨new, hout, herr, hdec⟩ := encItem_out (exec_encInData b s ▸ h)
    exact ⟨new, [], hout, by simp [hdec], herr, by simp⟩
  | encInEnd d =>
    obtain ⟨new, hout, herr, hdec⟩ := encItem_out (exec_encInEnd d s ▸ h)
    exact ⟨new, [], hout, by simp [hdec], herr, by simp⟩
  | decStd | decUrl =>
    obtain ⟨new, hout, henc⟩ := decOperation_out h
    exact ⟨[], new, by simp [henc], hout, by simp, by simp⟩
  | decInEnd d =>
    obtain ⟨new, hout, henc⟩ := decItem_out (exec_decInEnd d s ▸ h)
    exact ⟨[], new, by simp [henc], hout, by simp, fun _ _ hi => absurd rfl (hi d)⟩
  | decInChar c =>
    obtain ⟨new, hout, herr, henc⟩ := exec_decInChar_out h
    exact ⟨[], new, by simp [henc], hout, by simp, fun _ _ _ => herr⟩
  | encOutChar | encOutEnd0 | decOutByte | decOutEnd0 | decOutEnd1 | encCtrl | decCtrl =>
    cases h
    exact ⟨[], [], (List.append_nil _).symm, (List.append_nil _).symm, by simp, by simp⟩

/-- Settles O27: the latched unit finishes with one symbol held. -/
theorem decEndAfterOneSymbolRaises : Obligations.DecEndAfterOneSymbolRaises := by
  intro s d h
  rw [exec_decInEnd_next, decFinish_of_cnt_one (by simpa using h), decLatch_eq]
  rfl

/-- Settles O37: each output row is the consumer's receipt of the item and nothing else. -/
theorem consumerReadsResults : Obligations.ConsumerReadsResults :=
  fun _ _ => ⟨rfl, rfl, rfl, rfl, rfl⟩

end Sys2Proof.Proofs
end

section
/-! SUPPORT. The host's reset lines, and the one fault of an encoder item. -/

namespace Sys2Proof.Machine

section ResetTurn
variable {s : State} {sched : List Agent} {script : List HostAct}

/-- A RESET line acts on both units (R230). -/
theorem step_reset (h1 : s.sched = .host :: sched) (h2 : s.script = .reset :: script) :
    step s = .next (resetBoth ((s.setSched sched).setScript script)) :=
  step_of_act (a := .reset) (by simp [fetch_host h1, fetchHost, h2])

/-- A line for a unit's own reset acts on that unit (R230, notes/assumptions/12.md). -/
theorem step_resetUnit {u : UnitId} (h1 : s.sched = .host :: sched) (h2 : s.script = .resetUnit u :: script) :
    step s = .next (hostAct (.resetUnit u) ((s.setSched sched).setScript script)) :=
  step_of_act (by simp [fetch_host h1, fetchHost, h2])

end ResetTurn

/-- An encoder item faults at the unreachable `cnt` only (R26, R43). -/
theorem cnt_eq_three_of_exec_fault {i : Instr} {b : Byte} {s : State} {r : Fault}
    (hi : i = .encInData b ∨ i = .encInEnd b) (h : exec i s = .fault r) : s.enc.cnt = 3#2 := by
  by_contra hcnt
  obtain ⟨f, hf, -⟩ := exec_encIn_of_latch hi
  cases (hf s hcnt).symm.trans h

/-- At the unreachable `cnt` an encoder item faults in the same way whatever ENC_CTRL holds (R26, R43). -/
theorem exec_encIn_fault_setEncCtrl {i : Instr} {b : Byte} {s : State} {r : Fault}
    (hi : i = .encInData b ∨ i = .encInEnd b) (h : exec i s = .fault r) (n : BitVec 2) :
    exec i (s.setEncCtrl n) = .fault r := by
  have hcnt : s.enc.cnt = 3#2 := cnt_eq_three_of_exec_fault hi h
  obtain ⟨hdata, hend⟩ := Proofs.encStopsAtUnreachableCnt s b hcnt
  obtain ⟨hdata', hend'⟩ := Proofs.encStopsAtUnreachableCnt (s.setEncCtrl n) b hcnt
  obtain rfl | rfl := hi
  · exact hdata'.trans (hdata.symm.trans h)
  · exact hend'.trans (hend.symm.trans h)

end Sys2Proof.Machine
end

section
/-! PROOFS. The statements on reset and hazards. -/

namespace Sys2Proof.Proofs

open Sys2Proof Sys2Proof.Machine

/-- Settles O13: a busy unit's message start does not read the control register, and the encoder's one fault depends
on `cnt` alone. -/
theorem midMessageWriteHasNoEffect : Obligations.MidMessageWriteHasNoEffect := by
  refine fun s b => ⟨fun hbusy n i hi => ?_, fun hbusy n i hi => ?_⟩
  · have hi : i = .encInData b ∨ i = .encInEnd b := by simpa using hi
    refine ⟨fun t ht => ?_, fun r hr => exec_encIn_fault_setEncCtrl hi hr n⟩
    obtain ⟨-, hkeep, -⟩ := encMessageStartLatches s t b i hi ht
    obtain ⟨-, -, hwrite⟩ := hkeep hbusy
    exact hwrite n
  · have hi : i = .decInChar b ∨ i = .decInEnd b := by simpa using hi
    obtain ⟨t, ht, -, hkeep, -⟩ := decMessageStartLatches s b i hi
    obtain ⟨-, hwrite⟩ := hkeep hbusy
    exact ⟨t, ht, hwrite n⟩

/-- Settles O10: each reset line is used up and resets its units, their control registers and the message the consumer
has in hand. -/
theorem resetAbandonsTheMessage : Obligations.ResetAbandonsTheMessage := by
  refine fun s script sched hsched => ⟨fun h => ?_, fun h => ?_, fun h => ?_⟩
  · exact ⟨_, step_reset hsched h, rfl, rfl, rfl, rfl, rfl, rfl, rfl, rfl, rfl, rfl, rfl, rfl, rfl, rfl⟩
  · exact ⟨_, step_resetUnit hsched h, rfl, rfl, rfl, rfl, rfl, rfl, rfl, rfl, rfl, rfl, rfl⟩
  · exact ⟨_, step_resetUnit hsched h, rfl, rfl, rfl, rfl, rfl, rfl, rfl, rfl, rfl, rfl, rfl⟩

end Sys2Proof.Proofs
end
